-- ==== Sys2Proof/Word.lean ====
section
/-! DEFINITION. The word types of the CORE (spec rules R7, R9, R10) and the index type of its registers (R20). -/

namespace Sys2Proof

/-- An 8-bit value: a general register, a timer, a memory byte, the immediate `kk` (R7, R14). -/
abbrev Byte := BitVec 8

/-- A 16-bit value: `I`, `pc`, a stack slot, the key mask, an instruction word (R7). -/
abbrev Word := BitVec 16

/-- The 12-bit address field `nnn` of an instruction word (R14). -/
abbrev Addr12 := BitVec 12

/-- Four bits of an instruction word (R14). -/
abbrev Nibble := BitVec 4

/-- A register index, 0..15 (R20). -/
abbrev Reg := Fin 16

/-- `RF`, the register that doubles as the flag (R11, R22). -/
abbrev rf : Reg := 15

/-- A count of sprite rows, 0..15: the field `n` of `DRW` (R93). -/
abbrev RowCount := Fin 16

end Sys2Proof
end

