-- ==== Sys2Proof/Syntax.lean ====
section
/-! DEFINITION. The 34 instructions of the CORE: one constructor per row of the opcode map (spec rule R92), with
the operand fields of R91 already taken apart, so the machine never sees an encoded field. -/

namespace Sys2Proof

/-- An instruction (R92, syntax of R110). `SHR` and `SHL` keep the `y` field that the hardware ignores (R111, R173), so that
no bit of a word is lost in decoding. -/
inductive Instr where
  /-- clear screen, `00E0` (R190) -/
  | cls
  /-- return, `00EE` (R140) -/
  | ret
  /-- jump, `1nnn` (R141) -/
  | jp (nnn : Addr12)
  /-- call, `2nnn` (R142) -/
  | call (nnn : Addr12)
  /-- skip if equal, immediate, `3xkk` (R151) -/
  | sei (x : Reg) (kk : Byte)
  /-- skip if not equal, immediate, `4xkk` (R152) -/
  | snei (x : Reg) (kk : Byte)
  /-- skip if registers equal, `5xy0` (R153) -/
  | ser (x y : Reg)
  /-- set immediate, `6xkk` (R160) -/
  | ldi (x : Reg) (kk : Byte)
  /-- add immediate, `7xkk` (R161) -/
  | addi (x : Reg) (kk : Byte)
  /-- copy `y` into `x`, `8xy0` (R162) -/
  | mov (x y : Reg)
  /-- bitwise OR, `8xy1` (R163) -/
  | or (x y : Reg)
  /-- bitwise AND, `8xy2` (R164) -/
  | and (x y : Reg)
  /-- bitwise XOR, `8xy3` (R165) -/
  | xor (x y : Reg)
  /-- add with carry flag, `8xy4` (R166) -/
  | add (x y : Reg)
  /-- subtract `y` from `x`, `8xy5` (R167) -/
  | sub (x y : Reg)
  /-- shift right by one, `8xy6` (R168) -/
  | shr (x y : Reg)
  /-- compute `y - x` into `x`, `8xy7` (R169) -/
  | subn (x y : Reg)
  /-- shift left by one, `8xyE` (R170) -/
  | shl (x y : Reg)
  /-- skip if registers not equal, `9xy0` (R154) -/
  | sner (x y : Reg)
  /-- set index, `Annn` (R180) -/
  | ldx (nnn : Addr12)
  /-- jump with offset, `Bnnn` (R143) -/
  | jpo (nnn : Addr12)
  /-- random-and, `Cxkk` (R191) -/
  | rnd (x : Reg) (kk : Byte)
  /-- draw sprite, `Dxyn` (R192) -/
  | drw (x y : Reg) (n : RowCount)
  /-- skip if key pressed, `Ex9E` (R200) -/
  | skp (x : Reg)
  /-- skip if key not pressed, `ExA1` (R201) -/
  | sknp (x : Reg)
  /-- read the delay timer, `Fx07` (R202) -/
  | lddt (x : Reg)
  /-- wait for a key, `Fx0A` (R203) -/
  | waitk (x : Reg)
  /-- set the delay timer, `Fx15` (R204) -/
  | stdt (x : Reg)
  /-- set the sound timer, `Fx18` (R205) -/
  | stst (x : Reg)
  /-- add to index, `Fx1E` (R181) -/
  | addx (x : Reg)
  /-- address of a font character, `Fx29` (R182) -/
  | font (x : Reg)
  /-- store decimal digits, `Fx33` (R183) -/
  | bcd (x : Reg)
  /-- store registers `R[0..x]`, `Fx55` (R184) -/
  | stm (x : Reg)
  /-- load registers `R[0..x]`, `Fx65` (R185) -/
  | ldm (x : Reg)
  deriving DecidableEq, Repr

/-- The mnemonic of an instruction, as the opcode map spells it (R92, R110). -/
def Instr.mnemonic : Instr → String
  | .cls => "CLS"
  | .ret => "RET"
  | .jp _ => "JP"
  | .call _ => "CALL"
  | .sei _ _ => "SEI"
  | .snei _ _ => "SNEI"
  | .ser _ _ => "SER"
  | .ldi _ _ => "LDI"
  | .addi _ _ => "ADDI"
  | .mov _ _ => "MOV"
  | .or _ _ => "OR"
  | .and _ _ => "AND"
  | .xor _ _ => "XOR"
  | .add _ _ => "ADD"
  | .sub _ _ => "SUB"
  | .shr _ _ => "SHR"
  | .subn _ _ => "SUBN"
  | .shl _ _ => "SHL"
  | .sner _ _ => "SNER"
  | .ldx _ => "LDX"
  | .jpo _ => "JPO"
  | .rnd _ _ => "RND"
  | .drw _ _ _ => "DRW"
  | .skp _ => "SKP"
  | .sknp _ => "SKNP"
  | .lddt _ => "LDDT"
  | .waitk _ => "WAITK"
  | .stdt _ => "STDT"
  | .stst _ => "STST"
  | .addx _ => "ADDX"
  | .font _ => "FONT"
  | .bcd _ => "BCD"
  | .stm _ => "STM"
  | .ldm _ => "LDM"

end Sys2Proof
end

