-- ==== Sys2Proof/WellFormed.lean ====
section
/-! DEFINITION. The check an assembler makes on an instruction (spec rule R112). That an operand fits its field is a
fact of the operand's type (`Reg`, `Byte`, `Addr12`, `RowCount`); what remains is the one documented constraint on
operand VALUES, the flag register in ALU operations 4, 5, 6, 7 and E (R22, R103). An instruction that fails the check is
still encodable, decodes to itself and runs (R103, R172): nothing in the machine asks for the check (log 10). -/

namespace Sys2Proof

/-- `RF` is not an operand: the constraint of R22 on one register field. -/
def notFlag (r : Reg) : Bool := r != rf

/-- The operand constraint of R22, R103 and R112: `ADD`, `SUB`, `SUBN` name `RF` in neither field, `SHR` and `SHL` do
not shift `RF` (their `y` is no operand, R173). Every other instruction is unconstrained. -/
def Instr.wellFormed : Instr → Bool
  | .cls => true
  | .ret => true
  | .jp _ => true
  | .call _ => true
  | .sei _ _ => true
  | .snei _ _ => true
  | .ser _ _ => true
  | .ldi _ _ => true
  | .addi _ _ => true
  | .mov _ _ => true
  | .or _ _ => true
  | .and _ _ => true
  | .xor _ _ => true
  | .add x y => notFlag x && notFlag y
  | .sub x y => notFlag x && notFlag y
  | .shr x _ => notFlag x
  | .subn x y => notFlag x && notFlag y
  | .shl x _ => notFlag x
  | .sner _ _ => true
  | .ldx _ => true
  | .jpo _ => true
  | .rnd _ _ => true
  | .drw _ _ _ => true
  | .skp _ => true
  | .sknp _ => true
  | .lddt _ => true
  | .waitk _ => true
  | .stdt _ => true
  | .stst _ => true
  | .addx _ => true
  | .font _ => true
  | .bcd _ => true
  | .stm _ => true
  | .ldm _ => true

end Sys2Proof
end

