-- ==== Sys2Proof/Decode.lean ====
section
/-! DEFINITION. Decoding and encoding (spec file 30_encoding.md, rules R90 to R104): the fields of a word, the decoder
as a nested dispatch on family and sub-opcode (R94), the decoder on bytes, the encoder, and the opcode map of R92 as a
table. The numerals marked † in R92 are the spec's own and stand here alone (log 6). -/

namespace Sys2Proof

/-! ## Fields of an instruction word (R14, R91) -/

/-- `fam = w[15:12]` -/
def famOf (w : Word) : Nibble := w.extractLsb' 12 4

/-- `w[11:8]` as four bits -/
def xBits (w : Word) : Nibble := w.extractLsb' 8 4

/-- `w[7:4]` as four bits -/
def yBits (w : Word) : Nibble := w.extractLsb' 4 4

/-- `w[3:0]` as four bits -/
def nBits (w : Word) : Nibble := w.extractLsb' 0 4

/-- A nibble names a register directly (R93). -/
def regOfNibble (b : Nibble) : Reg := ⟨b.toNat, b.isLt⟩

/-- The nibble of a register index. -/
def nibbleOfReg (r : Reg) : Nibble := BitVec.ofNat 4 r.val

/-- `x = w[11:8]`, a register index -/
def xOf (w : Word) : Reg := regOfNibble (xBits w)

/-- `y = w[7:4]`, a register index -/
def yOf (w : Word) : Reg := regOfNibble (yBits w)

/-- `n = w[3:0]`, a count of rows -/
def nOf (w : Word) : RowCount := ⟨(nBits w).toNat, (nBits w).isLt⟩

/-- `kk = w[7:0]` -/
def kkOf (w : Word) : Byte := w.extractLsb' 0 8

/-- `nnn = w[11:0]` -/
def nnnOf (w : Word) : Addr12 := w.extractLsb' 0 12

/-! ## The decoder -/

/-- Family 0: the whole word is compared (R95). -/
def decodeFamily0 (w : Word) : Option Instr :=
  match w.toNat with
  | 0x00E0 => some .cls
  | 0x00EE => some .ret
  | _ => none

/-- Family 8: the low nibble is the sub-opcode (R97). -/
def decodeFamily8 (w : Word) : Option Instr :=
  match (nBits w).toNat with
  | 0x0 => some (.mov (xOf w) (yOf w))
  | 0x1 => some (.or (xOf w) (yOf w))
  | 0x2 => some (.and (xOf w) (yOf w))
  | 0x3 => some (.xor (xOf w) (yOf w))
  | 0x4 => some (.add (xOf w) (yOf w))
  | 0x5 => some (.sub (xOf w) (yOf w))
  | 0x6 => some (.shr (xOf w) (yOf w))
  | 0x7 => some (.subn (xOf w) (yOf w))
  | 0xE => some (.shl (xOf w) (yOf w))
  | _ => none

/-- Family E: the low byte is the sub-opcode (R98). -/
def decodeFamilyE (w : Word) : Option Instr :=
  match (kkOf w).toNat with
  | 0x9E => some (.skp (xOf w))
  | 0xA1 => some (.sknp (xOf w))
  | _ => none

/-- Family F: the low byte is the sub-opcode (R99). -/
def decodeFamilyF (w : Word) : Option Instr :=
  match (kkOf w).toNat with
  | 0x07 => some (.lddt (xOf w))
  | 0x0A => some (.waitk (xOf w))
  | 0x15 => some (.stdt (xOf w))
  | 0x18 => some (.stst (xOf w))
  | 0x1E => some (.addx (xOf w))
  | 0x29 => some (.font (xOf w))
  | 0x33 => some (.bcd (xOf w))
  | 0x55 => some (.stm (xOf w))
  | 0x65 => some (.ldm (xOf w))
  | _ => none

/-- The instruction a word stands for; `none` is the unrecognized instruction word of R100. Dispatch is first on the
family, then on a sub-opcode whose place depends on it (R94); families 5 and 9 want a low nibble of 0 (R96). -/
def decodeWord (w : Word) : Option Instr :=
  match (famOf w).toNat with
  | 0x0 => decodeFamily0 w
  | 0x1 => some (.jp (nnnOf w))
  | 0x2 => some (.call (nnnOf w))
  | 0x3 => some (.sei (xOf w) (kkOf w))
  | 0x4 => some (.snei (xOf w) (kkOf w))
  | 0x5 => if nBits w = 0 then some (.ser (xOf w) (yOf w)) else none
  | 0x6 => some (.ldi (xOf w) (kkOf w))
  | 0x7 => some (.addi (xOf w) (kkOf w))
  | 0x8 => decodeFamily8 w
  | 0x9 => if nBits w = 0 then some (.sner (xOf w) (yOf w)) else none
  | 0xA => some (.ldx (nnnOf w))
  | 0xB => some (.jpo (nnnOf w))
  | 0xC => some (.rnd (xOf w) (kkOf w))
  | 0xD => some (.drw (xOf w) (yOf w) (nOf w))
  | 0xE => decodeFamilyE w
  | 0xF => decodeFamilyF w
  | _ => none

/-- The word in two bytes, the first of them its HIGH byte (R64, R90). -/
def wordOfBytes (hi lo : Byte) : Word := hi ++ lo

/-- The byte of a word at the lower address (R64). -/
def highByte (w : Word) : Byte := w.extractLsb' 8 8

/-- The byte of a word at the higher address (R64). -/
def lowByte (w : Word) : Byte := w.extractLsb' 0 8

/-- Why bytes are no instruction. -/
inductive DecodeError where
  /-- fewer than the two bytes every instruction has (R90) -/
  | truncated
  /-- the word matches no row of the opcode map (R100): a no-op with a diagnostic when it is executed (R126) -/
  | unrecognized (w : Word)
  deriving DecidableEq, Repr

/-- The decoder on any bytes: the instruction in the first two and the bytes after it, or why there is none. -/
def decode : List Byte → Except DecodeError (Instr × List Byte)
  | hi :: lo :: rest =>
    match decodeWord (wordOfBytes hi lo) with
    | some i => .ok (i, rest)
    | none => .error (.unrecognized (wordOfBytes hi lo))
  | [_] => .error .truncated
  | [] => .error .truncated

/-! ## The encoder, by the six formats of R92 -/

/-- Format A: family and 12-bit address. -/
def packA (fam : Nibble) (nnn : Addr12) : Word := fam ++ nnn

/-- Format XK: family, register and 8-bit immediate; and format XS, whose low byte is the sub-opcode. -/
def packXK (fam : Nibble) (x : Reg) (kk : Byte) : Word := fam ++ nibbleOfReg x ++ kk

/-- Format XYN: family, two registers and a nibble; and format XY, whose low nibble is fixed. -/
def packXYN (fam : Nibble) (x y : Reg) (n : Nibble) : Word := fam ++ nibbleOfReg x ++ nibbleOfReg y ++ n

/-- The word of an instruction (R92). -/
def encode : Instr → Word
  | .cls => 0x00E0
  | .ret => 0x00EE
  | .jp nnn => packA 0x1 nnn
  | .call nnn => packA 0x2 nnn
  | .sei x kk => packXK 0x3 x kk
  | .snei x kk => packXK 0x4 x kk
  | .ser x y => packXYN 0x5 x y 0x0
  | .ldi x kk => packXK 0x6 x kk
  | .addi x kk => packXK 0x7 x kk
  | .mov x y => packXYN 0x8 x y 0x0
  | .or x y => packXYN 0x8 x y 0x1
  | .and x y => packXYN 0x8 x y 0x2
  | .xor x y => packXYN 0x8 x y 0x3
  | .add x y => packXYN 0x8 x y 0x4
  | .sub x y => packXYN 0x8 x y 0x5
  | .shr x y => packXYN 0x8 x y 0x6
  | .subn x y => packXYN 0x8 x y 0x7
  | .shl x y => packXYN 0x8 x y 0xE
  | .sner x y => packXYN 0x9 x y 0x0
  | .ldx nnn => packA 0xA nnn
  | .jpo nnn => packA 0xB nnn
  | .rnd x kk => packXK 0xC x kk
  | .drw x y n => packXYN 0xD x y (BitVec.ofNat 4 n.val)
  | .skp x => packXK 0xE x 0x9E
  | .sknp x => packXK 0xE x 0xA1
  | .lddt x => packXK 0xF x 0x07
  | .waitk x => packXK 0xF x 0x0A
  | .stdt x => packXK 0xF x 0x15
  | .stst x => packXK 0xF x 0x18
  | .addx x => packXK 0xF x 0x1E
  | .font x => packXK 0xF x 0x29
  | .bcd x => packXK 0xF x 0x33
  | .stm x => packXK 0xF x 0x55
  | .ldm x => packXK 0xF x 0x65

/-- The two bytes of an instruction in the order they lie in memory (R64). -/
def encodeBytes (i : Instr) : List Byte := [highByte (encode i), lowByte (encode i)]

/-! ## The opcode map as a table -/

/-- One row of R92's opcode map. -/
structure OpcodeRow where
  mnemonic : String
  pattern : Word
  mask : Word
  deriving DecidableEq, Repr

/-- R92: `w` selects the row exactly when `(w & mask) = match`. -/
def OpcodeRow.selects (r : OpcodeRow) (w : Word) : Bool := w &&& r.mask == r.pattern

/-- Rows 1 to 18 of R92. -/
def opcodeRowsLow : List OpcodeRow :=
  [⟨"CLS", 0x00E0, 0xFFFF⟩, ⟨"RET", 0x00EE, 0xFFFF⟩, ⟨"JP", 0x1000, 0xF000⟩, ⟨"CALL", 0x2000, 0xF000⟩,
   ⟨"SEI", 0x3000, 0xF000⟩, ⟨"SNEI", 0x4000, 0xF000⟩, ⟨"SER", 0x5000, 0xF00F⟩, ⟨"LDI", 0x6000, 0xF000⟩,
   ⟨"ADDI", 0x7000, 0xF000⟩, ⟨"MOV", 0x8000, 0xF00F⟩, ⟨"OR", 0x8001, 0xF00F⟩, ⟨"AND", 0x8002, 0xF00F⟩,
   ⟨"XOR", 0x8003, 0xF00F⟩, ⟨"ADD", 0x8004, 0xF00F⟩, ⟨"SUB", 0x8005, 0xF00F⟩, ⟨"SHR", 0x8006, 0xF00F⟩,
   ⟨"SUBN", 0x8007, 0xF00F⟩, ⟨"SHL", 0x800E, 0xF00F⟩]

/-- Rows 19 to 34 of R92. -/
def opcodeRowsHigh : List OpcodeRow :=
  [⟨"SNER", 0x9000, 0xF00F⟩, ⟨"LDX", 0xA000, 0xF000⟩, ⟨"JPO", 0xB000, 0xF000⟩, ⟨"RND", 0xC000, 0xF000⟩,
   ⟨"DRW", 0xD000, 0xF000⟩, ⟨"SKP", 0xE09E, 0xF0FF⟩, ⟨"SKNP", 0xE0A1, 0xF0FF⟩, ⟨"LDDT", 0xF007, 0xF0FF⟩,
   ⟨"WAITK", 0xF00A, 0xF0FF⟩, ⟨"STDT", 0xF015, 0xF0FF⟩, ⟨"STST", 0xF018, 0xF0FF⟩, ⟨"ADDX", 0xF01E, 0xF0FF⟩,
   ⟨"FONT", 0xF029, 0xF0FF⟩, ⟨"BCD", 0xF033, 0xF0FF⟩, ⟨"STM", 0xF055, 0xF0FF⟩, ⟨"LDM", 0xF065, 0xF0FF⟩]

/-- The opcode map of R92, its rows in its order. -/
def opcodeRows : List OpcodeRow := opcodeRowsLow ++ opcodeRowsHigh

/-! ## The host's numbering of an instruction's bits -/

/-- The word whose bits are `v`'s low `nbits` bits, the rest 0. The opcode table numbers a 16-bit word with bit 0 its
least significant bit, which is the spec's own numbering (R10). -/
def wordOfTableBits (nbits v : Nat) : Word := BitVec.ofNat 16 (v % 2 ^ nbits)

/-- What the decoder reads from an instruction whose bits, as the opcode table numbers them, are `w`: the word is laid
out high byte first (R64) and its bytes are decoded. -/
def decodeTableWord (nbits w : Nat) : Option Instr :=
  match decode [highByte (wordOfTableBits nbits w), lowByte (wordOfTableBits nbits w)] with
  | .ok (i, _) => some i
  | .error _ => none

end Sys2Proof
end

