-- ==== Sys2Proof/Config.lean ====
section
/-! DEFINITION. The model's one open value. The fixed sizes of the CORE (spec rule R7) stand as numerals where the
rules use them, and its parameter `FONT` (R8) is held in the memory it fills. -/

namespace Sys2Proof.Config

/-- DESIGN CHOICE (log 3, log 4), safe. `draw8()` of R13: the value of the `n`-th draw, about which nothing is
known. It supplies the two results that R172 leaves unspecified, and `random_byte()` (R191) where the host has
presented no byte. It has no body, so no proof can learn a value of it. -/
opaque freeByte : Nat → Byte

end Sys2Proof.Config
end

