-- ==== Sys2Proof/Machine/Font.lean ====
section
/-! DEFINITION. The default value of the model parameter `FONT` (spec rules R8, R33). -/

namespace Sys2Proof.Machine

/-- A value of the parameter `FONT`: the 80 bytes that reset puts at addresses 0..79 (R8, R33). -/
abbrev Font := Vector Byte 80

/-- PRESUMED (log 1), unsafe. The default `FONT` of R33, which the spec itself marks as general knowledge: glyph `d`
is the five bytes from `5 d`, top row first. Only `State.reset` uses it; the parameter itself is a field of the state,
so a statement over all states holds for every font. -/
def defaultFont : Font := #v[
  0xF0, 0x90, 0x90, 0x90, 0xF0,
  0x20, 0x60, 0x20, 0x20, 0x70,
  0xF0, 0x10, 0xF0, 0x80, 0xF0,
  0xF0, 0x10, 0xF0, 0x10, 0xF0,
  0x90, 0x90, 0xF0, 0x10, 0x10,
  0xF0, 0x80, 0xF0, 0x10, 0xF0,
  0xF0, 0x80, 0xF0, 0x90, 0xF0,
  0xF0, 0x10, 0x20, 0x40, 0x40,
  0xF0, 0x90, 0xF0, 0x90, 0xF0,
  0xF0, 0x90, 0xF0, 0x10, 0xF0,
  0xF0, 0x90, 0xF0, 0x90, 0x90,
  0xE0, 0x90, 0xE0, 0x90, 0xE0,
  0xF0, 0x80, 0x80, 0x80, 0xF0,
  0xE0, 0x90, 0x90, 0x90, 0xE0,
  0xF0, 0x80, 0xF0, 0x80, 0xF0,
  0xF0, 0x80, 0xF0, 0x80, 0x80]

end Sys2Proof.Machine
end

