-- ==== Sys2Proof/Machine/State.lean ====
section
/-! DEFINITION. The state of the CORE as plain data (spec file 10_state.md, rules R20 to R38), its value after `RESET`
(R37, R240), and the ways a step or a load can end without a next state (R210). -/

namespace Sys2Proof.Machine

/-- The memory image `M` (R60), with the parameter `FONT` it was created with (R8, R33). `cells` lists, at strictly
rising addresses, exactly the bytes that differ from their reset contents; `Memory.read` and `Memory.write` in Ops.lean
are the only way in (log 11). -/
structure Memory where
  /-- the model parameter `FONT`: what addresses 0..79 hold at reset; nothing writes it -/
  font : Font
  /-- the bytes that differ from their reset contents -/
  cells : List Host.Cell
  deriving DecidableEq, Repr

/-- The framebuffer `FB` (R32): row `r` from the top is entry `r`, and the pixel in column `c` from the left is bit `c`
of it. -/
abbrev Framebuffer := Vector (BitVec 64) 32

/-- The non-fatal report of a word that matches no row of the opcode map: the word and the address it was fetched from
(R213). -/
structure Diagnostic where
  word : Word
  pc : Word
  deriving DecidableEq, Repr

/-- What a successful step returns to the host: `Ok{redraw_needed, tone_active, diag}` (R15, R120, R128). -/
structure StepOutput where
  redrawNeeded : Bool
  toneActive : Bool
  diag : Option Diagnostic
  deriving DecidableEq, Repr

/-- No effect and no diagnostic: how every step begins (phase 2 of P-R129). -/
def StepOutput.clear : StepOutput := { redrawNeeded := false, toneActive := false, diag := none }

/-- The whole architectural state (R38), and after it three fields of the model's own: the draws already made, the
bytes the host has presented, and what the latest step returned. -/
structure State where
  /-- `R[0]` .. `R[15]` (R20); `R[15]` is `RF` (R22) -/
  regs : Vector Byte 16
  /-- `I`, the index register (R27) -/
  idx : Word
  /-- `pc`, the program counter (R23) -/
  pc : Word
  /-- `SP`, the number of saved program counters, 0..16 (R28) -/
  sp : Fin 17
  /-- `STK[0]` .. `STK[15]`, the saved program counters (R28) -/
  stk : Vector Word 16
  /-- `DT`, the delay timer (R30) -/
  dt : Byte
  /-- `ST`, the sound timer (R30) -/
  st : Byte
  /-- `KEYS`, one bit per logical key, written by the host (R31) -/
  keys : Word
  /-- `FB`, 32 rows of 64 pixels (R32) -/
  fb : Framebuffer
  /-- `M` (R33, R60) -/
  mem : Memory
  /-- Model's own (log 3): how many free values have been drawn. -/
  draws : Nat
  /-- Model's own (log 4): the bytes the host has presented for `random_byte()` and no `RND` has used yet, the next one
  first: the input `rnd` of R120. Empty means that the host presents none and the byte is a free value. -/
  rndIn : List Byte
  /-- Model's own (log 5): what the latest step returned. Every step writes it afresh and no instruction reads it
  (R34). -/
  out : StepOutput
  deriving DecidableEq, Repr

/-- The explicit failure results (R210). Each ends its transaction and leaves the state as it was (R214). -/
inductive Fault where
  /-- Raised by the fetch of a step that begins with `pc > 4094`; carries that `pc` (R121, R211). Safe: the spec reports
  this failure. -/
  | pcOutOfRange (pc : Word)
  /-- Raised by `CALL` when 16 entries are live; carries the `pc` of the `CALL` (R142, R212). Safe: the spec reports this
  failure. -/
  | stackOverflow (pc : Word)
  /-- Raised by `RET` when no entry is live; carries the `pc` of the `RET` (R140, R212). Safe: the spec reports this
  failure. -/
  | stackUnderflow (pc : Word)
  /-- Raised by the host transaction `LOAD` for an image longer than 3584 bytes, never by a step; carries the length
  (R77). Safe: the spec reports this failure. -/
  | imageTooLarge (len : Nat)
  deriving DecidableEq, Repr

/-- Reasons to answer without a meaning. -/
inductive Refusal where
  /-- Raised by `exec` for an instruction that has no meaning yet; no instruction of this model is left so. Safe: the
  model stops where the hardware goes on. -/
  | notModelled (mnemonic : String)
  deriving DecidableEq, Repr

/-- What a step, or the execute phase of one, answers. -/
abbrev Answer := Host.Outcome State Fault Refusal

/-- The state after `RESET` with a given value of the parameter `FONT` (R37, R243). The stack slots, for which the spec
gives no value, are 0 (log 2), and the model's own fields are empty (log 3, log 4, log 5). -/
def State.resetWith (font : Font) : State where
  regs := Vector.replicate 16 0
  idx := 0
  pc := 0x0200
  sp := 0
  stk := Vector.replicate 16 0
  dt := 0
  st := 0
  keys := 0
  fb := Vector.replicate 32 0
  mem := { font := font, cells := [] }
  draws := 0
  rndIn := []
  out := StepOutput.clear

/-- The state after `RESET` with the default `FONT` of R33 (R37, R240). -/
def State.reset : State := State.resetWith defaultFont

end Sys2Proof.Machine
end

