-- ==== Sys2Proof/Machine/Ops.lean ====
section
/-! DEFINITION. The named operations every meaning is written with: memory, registers, program counter, call stack,
framebuffer, free values, failures, and the parts of a step around the execute phase (spec rules R12, R13, R28, R32,
R68, R121, R126 to R128). -/

namespace Sys2Proof.Machine

/-! ## Memory (R12, R60, R68, R69) -/

/-- What an address holds until something is written to it: the parameter `FONT` in the font region, 0 above it (R33,
R62). -/
def baseByte (font : Font) (a : Nat) : Byte := if h : a < 80 then font[a] else 0

/-- The byte listed for an address. -/
def lookupCell : List Host.Cell → Nat → Option Byte
  | [], _ => none
  | (b, v) :: rest, a => if b = a then some v else lookupCell rest a

/-- The list without an entry for an address. -/
def dropCell (a : Nat) (cells : List Host.Cell) : List Host.Cell := cells.filter (fun c => c.1 != a)

/-- The list with one more entry, before the first entry at a higher address. -/
def insertCell (a : Nat) (v : Byte) : List Host.Cell → List Host.Cell
  | [] => [(a, v)]
  | c :: rest => if a < c.1 then (a, v) :: c :: rest else c :: insertCell a v rest

/-- The byte at an address. -/
def Memory.read (m : Memory) (a : Nat) : Byte := (lookupCell m.cells a).getD (baseByte m.font a)

/-- The memory with one byte replaced. An entry is kept only for a byte that differs from the reset contents, so equal
memories are equal data. -/
def Memory.write (m : Memory) (a : Nat) (v : Byte) : Memory :=
  { m with cells := if v = baseByte m.font a then dropCell a m.cells else insertCell a v (dropCell a m.cells) }

/-- The canonical form of a memory: rising addresses, all of them inside the 4096 bytes of R60, and no entry equal to
the reset contents. -/
abbrev Memory.wf (m : Memory) : Prop :=
  m.cells.Pairwise (fun p q => p.1 < q.1) ∧ ∀ c ∈ m.cells, c.1 < 4096 ∧ c.2 ≠ baseByte m.font c.1

/-- `MemRead(a, 1)`: every data address is taken modulo 4096 (R12, R68). -/
def memRead (s : State) (a : Nat) : Byte := s.mem.read (a % 4096)

/-- `MemWrite(a, 1, v)` (R12, R68). -/
def memWrite (s : State) (a : Nat) (v : Byte) : State := { s with mem := s.mem.write (a % 4096) v }

/-! ## Registers (R20, R22, R27) -/

/-- `R[r]` -/
def State.reg (s : State) (r : Reg) : Byte := s.regs[r]

/-- `R[r] <- v` -/
def setReg (s : State) (r : Reg) (v : Byte) : State := { s with regs := s.regs.set r v }

/-- `I <- v` -/
def setIdx (s : State) (v : Word) : State := { s with idx := v }

/-- `DT <- v` -/
def setDelay (s : State) (v : Byte) : State := { s with dt := v }

/-- `ST <- v` -/
def setSound (s : State) (v : Byte) : State := { s with st := v }

/-! ## Program counter (R23, R24, R124, R150) -/

/-- `pc <- target` -/
def jumpTo (s : State) (target : Word) : State := { s with pc := target }

/-- `pc <- (pc + 2) mod 65536`, the default of R124 -/
def advance (s : State) : State := jumpTo s (s.pc + 2#16)

/-- The skip rule R150: `pc + 4` if the condition holds, else `pc + 2`. -/
def skipIf (s : State) (cond : Bool) : State := if cond then jumpTo s (s.pc + 4#16) else advance s

/-! ## Call stack (R28) -/

/-- Save `v` as the newest entry; `none` when 16 entries are live. -/
def pushReturn (s : State) (v : Word) : Option State :=
  if h : s.sp.val < 16 then
    some { s with stk := s.stk.set s.sp.val v, sp := ⟨s.sp.val + 1, by omega⟩ }
  else none

/-- Take the newest entry off; `none` when no entry is live. The slot keeps its contents (R140). -/
def popReturn (s : State) : Option (Word × State) :=
  if h : 0 < s.sp.val then
    have := s.sp.isLt
    some (s.stk[s.sp.val - 1], { s with sp := ⟨s.sp.val - 1, by omega⟩ })
  else none

/-! ## Framebuffer (R32) -/

/-- `FB[r][c]` -/
def pixel (fb : Framebuffer) (r : Fin 32) (c : Fin 64) : Bool := fb[r].getLsbD c.val

/-- `FB[r][c] <- FB[r][c] xor 1` -/
def flipPixel (fb : Framebuffer) (r : Fin 32) (c : Fin 64) : Framebuffer :=
  fb.set r (fb[r] ^^^ BitVec.twoPow 64 c.val)

/-- Every pixel 0. -/
def blankScreen : Framebuffer := Vector.replicate 32 0

/-- `FB <- fb` -/
def setScreen (s : State) (fb : Framebuffer) : State := { s with fb := fb }

/-- `redraw <- 1` (P-R129, R128) -/
def requestRedraw (s : State) : State := { s with out := { s.out with redrawNeeded := true } }

/-! ## Free values (R13, R120, R172) -/

/-- `draw8()`: a value nothing is known about, never the same draw twice (R13; log 3). -/
def drawFree (s : State) : Byte × State := (Config.freeByte s.draws, { s with draws := s.draws + 1 })

/-- `rnd`, the byte of one `random_byte()` call: the next byte the host presented, else a free value (R120, R191;
log 4). -/
def takeRandom (s : State) : Byte × State :=
  match s.rndIn with
  | b :: rest => (b, { s with rndIn := rest })
  | [] => drawFree s

/-! ## Failures

The CORE has no trap entry and no return from one: a failure saves nothing and transfers control nowhere (R218, R219). -/

/-- `raise <Failure>(info)` of R13: the step ends at once, and since no state is answered the state stays what it was
when the step began (R130, R214; log 8). -/
def raise (f : Fault) : Answer := .fault f

/-- The cause code of a failure (R210). -/
def Fault.code : Fault → Nat
  | .pcOutOfRange _ => 1
  | .stackOverflow _ => 2
  | .stackUnderflow _ => 3
  | .imageTooLarge _ => 4

/-- The recorded `info` of a failure (R210). -/
def Fault.info : Fault → Nat
  | .pcOutOfRange pc => pc.toNat
  | .stackOverflow pc => pc.toNat
  | .stackUnderflow pc => pc.toNat
  | .imageTooLarge len => len

/-- The code of the one diagnostic, `Unrecognized` (R210). -/
def Diagnostic.code (_ : Diagnostic) : Nat := 16

/-! ## The phases of a step around execution (P-R129) -/

/-- The word `M[pc] || M[pc+1]`, high byte first; the second address does not wrap (R64, R121). -/
def wordAt (m : Memory) (pc : Word) : Word := wordOfBytes (m.read pc.toNat) (m.read (pc.toNat + 1))

/-- Phase 1: `PcOutOfRange` when `pc > 4094`, else the word at `pc` (R121). -/
def fetch (s : State) : Except Fault Word :=
  if 4094 < s.pc.toNat then .error (.pcOutOfRange s.pc) else .ok (wordAt s.mem s.pc)

/-- Phase 2: `redraw <- 0 ; diag <- none`. -/
def beginStep (s : State) : State := { s with out := StepOutput.clear }

/-- The execute phase of an unrecognized word: no item changes but `pc`, and the word and its address are reported
(R126, R213). -/
def execUnrecognized (w : Word) (s : State) : Answer :=
  .next (advance { s with out := { s.out with diag := some { word := w, pc := s.pc } } })

/-- One timer, decremented if it is above 0 (R127). -/
def tickDown (v : Byte) : Byte := if v = 0 then 0 else v - 1

/-- Phase 4: both timers tick (R127). -/
def tick (s : State) : State := { s with dt := tickDown s.dt, st := tickDown s.st }

/-- Phase 5: `tone <- (ST != 0)`, of the ticked timer (R128). -/
def report (s : State) : State := { s with out := { s.out with toneActive := s.st != 0 } }

/-- Phases 4 and 5 after a successful execute phase; a failure passes through untouched (R130). -/
def finishStep : Answer → Answer
  | .next s => .next (report (tick s))
  | .fault f => .fault f
  | .refused r => .refused r

/-! ## Placing an instruction -/

/-- The memory with a word stored at an address, high byte first (R64). -/
def Memory.writeWord (m : Memory) (a : Nat) (w : Word) : Memory := (m.write a (highByte w)).write (a + 1) (lowByte w)

end Sys2Proof.Machine
end

