-- ==== Sys2Proof/Machine/Operands.lean ====
section
/-! DEFINITION. The operand forms of the instruction set: zero-extended fields (R93), the one data addressing mode
(R186), the key an operand names (R206), the register block of `STM` and `LDM`, the digits of `BCD`, and the sprite of
`DRW` (P-R192). -/

namespace Sys2Proof.Machine

/-! ## Fields used as 16-bit values (R93) -/

/-- `zext_16(nnn)` -/
def addressOf (nnn : Addr12) : Word := nnn.setWidth 16

/-- `zext_16(v)` -/
def widen (v : Byte) : Word := v.setWidth 16

/-! ## Addresses formed from the index register (R68, R186) -/

/-- `I + k`, before the reduction modulo 4096 that `memRead` and `memWrite` make (R68). -/
def indexAddr (s : State) (k : Nat) : Nat := s.idx.toNat + k

/-- The address in `M` that an access at `I + k` reaches: `(I + k) mod 4096` (R186). -/
def effAddr (s : State) (k : Nat) : Nat := indexAddr s k % 4096

/-! ## Keys (R31, R206) -/

/-- Key `k` is down: bit `k` of the mask; there is no bit above 15 (R206). -/
def keyDown (keys : Word) (k : Nat) : Bool := decide (k < 16) && keys.getLsbD k

/-- The key a register names is pressed (R200, R201). -/
def keyPressed (s : State) (x : Reg) : Bool := keyDown s.keys (s.reg x).toNat

/-- The lowest-numbered key that is down, scanning 0..15 in ascending order (R203). -/
def lowestKey (keys : Word) : Option Nat := (List.range 16).find? (keyDown keys)

/-! ## Register blocks (R184, R185) -/

/-- The register with a given number. -/
def regNo (k : Nat) : Reg := Fin.ofNat 16 k

/-- Store the first `n` registers at `I`, `I+1`, …, in ascending order (R184). -/
def storeBlock (s : State) : Nat → State
  | 0 => s
  | k + 1 => memWrite (storeBlock s k) (indexAddr s k) (s.reg (regNo k))

/-- Load the first `n` registers from `I`, `I+1`, …, in ascending order (R185). -/
def loadBlock (s : State) : Nat → State
  | 0 => s
  | k + 1 => setReg (loadBlock s k) (regNo k) (memRead s (indexAddr s k))

/-! ## Decimal digits (R183) -/

/-- `v div 100` -/
def hundreds (v : Byte) : Byte := BitVec.ofNat 8 (v.toNat / 100)

/-- `(v div 10) mod 10` -/
def tens (v : Byte) : Byte := BitVec.ofNat 8 (v.toNat / 10 % 10)

/-- `v mod 10` -/
def units (v : Byte) : Byte := BitVec.ofNat 8 (v.toNat % 10)

/-! ## Sprites (P-R192)

`Canvas` is what the two loops of P-R192 carry: the framebuffer so far, and `coll`. -/

/-- The framebuffer and the collision bit of a sprite being drawn. -/
abbrev Canvas := Framebuffer × Bool

/-- The body of the inner loop: bit `7 - col` of the row's byte, at column `(cx + col) mod 64`; a set pixel that is
about to be turned off is a collision (P-R192; the bit order and the column wrap are log 7). -/
def drawBit (b : Byte) (pr : Fin 32) (cx col : Nat) (cv : Canvas) : Canvas :=
  if b.getLsbD (7 - col) then
    (flipPixel cv.1 pr (Fin.ofNat 64 (cx + col)), cv.2 || pixel cv.1 pr (Fin.ofNat 64 (cx + col)))
  else cv

/-- The first `n` columns of one sprite row. -/
def drawBits (b : Byte) (pr : Fin 32) (cx : Nat) (cv : Canvas) : Nat → Canvas
  | 0 => cv
  | col + 1 => drawBit b pr cx col (drawBits b pr cx cv col)

/-- The first `n` rows of a sprite: row `row` is the byte at `I + row`, drawn at framebuffer row `(vy + row) mod 32`. -/
def drawRows (s : State) (vx vy : Byte) : Nat → Canvas
  | 0 => (s.fb, false)
  | row + 1 =>
    drawBits (memRead s (indexAddr s row)) (Fin.ofNat 32 (vy.toNat + row)) (vx.toNat % 64) (drawRows s vx vy row) 8

end Sys2Proof.Machine
end

