-- ==== Sys2Proof/Machine/Flags.lean ====
section
/-! DEFINITION. The flag register: the five flag computations of the register ALU (spec rules R26, R166 to R170), and
what happens when `RF` is an operand of one of them (R172). -/

namespace Sys2Proof.Machine

/-- A flag as `RF` holds it: 0x00 or 0x01 (R26). -/
def flagByte (b : Bool) : Byte := if b then 1 else 0

/-- The carry out of bit 7 of `a + b` (R166, R171). -/
def carryOut (a b : Byte) : Bool := decide (255 < a.toNat + b.toNat)

/-- No borrow in `a - b`: `a >= b` (R167, R169, R171). -/
def noBorrow (a b : Byte) : Bool := decide (b.toNat ≤ a.toNat)

/-- The bit a right shift by one puts out, `a[0]` (R168). -/
def shiftedOutRight (a : Byte) : Bool := a.getLsbD 0

/-- The bit a left shift by one puts out, `a[7]` (R170). -/
def shiftedOutLeft (a : Byte) : Bool := a.getLsbD 7

/-- A result and its flag written back: `R[x] <- v`, then `RF <- flag` (R166 to R170). -/
def writeWithFlag (s : State) (x : Reg) (v : Byte) (flag : Bool) : State := setReg (setReg s x v) rf (flagByte flag)

/-- A word that breaks the flag-register constraint (R172): `R[x]` and `RF` each receive a free value, one draw only if
they are the same register (log 3). -/
def writeUnspecified (s : State) (x : Reg) : State :=
  if x = rf then
    let d := drawFree s
    setReg d.2 rf d.1
  else
    let d := drawFree s
    let e := drawFree d.2
    setReg (setReg e.2 x d.1) rf e.1

/-- A register ALU operation with a flag: when `RF` is one of its operands its results are unspecified (R172), else
the result and the flag are written; either way `pc + 2`. -/
def flaggedOp (s : State) (x : Reg) (namesFlag : Bool) (v : Byte) (flag : Bool) : Answer :=
  .next (advance (if namesFlag then writeUnspecified s x else writeWithFlag s x v flag))

end Sys2Proof.Machine
end

