-- ==== Sys2Proof/Machine/Alu.lean ====
section
/-! DEFINITION. `LDI`, `ADDI` and the nine register ALU operations (spec file 43_register_alu.md). -/

namespace Sys2Proof.Machine

/-- `LDI Rx, kk`: `R[x] <- kk` (R160). -/
def execLdi (x : Reg) (kk : Byte) (s : State) : Answer := .next (advance (setReg s x kk))

/-- `ADDI Rx, kk`: `R[x] <- (R[x] + kk) mod 256`, no flag (R161). -/
def execAddi (x : Reg) (kk : Byte) (s : State) : Answer := .next (advance (setReg s x (s.reg x + kk)))

/-- `MOV Rx, Ry`: `R[x] <- R[y]` (R162). -/
def execMov (x y : Reg) (s : State) : Answer := .next (advance (setReg s x (s.reg y)))

/-- `OR Rx, Ry`, no flag (R163). -/
def execOr (x y : Reg) (s : State) : Answer := .next (advance (setReg s x (s.reg x ||| s.reg y)))

/-- `AND Rx, Ry`, no flag (R164). -/
def execAnd (x y : Reg) (s : State) : Answer := .next (advance (setReg s x (s.reg x &&& s.reg y)))

/-- `XOR Rx, Ry`, no flag (R165). -/
def execXor (x y : Reg) (s : State) : Answer := .next (advance (setReg s x (s.reg x ^^^ s.reg y)))

/-- `ADD Rx, Ry`: the sum modulo 256, and the carry in `RF` (R166; with `RF` as an operand R172). -/
def execAdd (x y : Reg) (s : State) : Answer :=
  flaggedOp s x (x == rf || y == rf) (s.reg x + s.reg y) (carryOut (s.reg x) (s.reg y))

/-- `SUB Rx, Ry`: `R[x] - R[y]` modulo 256, and no-borrow in `RF` (R167; with `RF` as an operand R172). -/
def execSub (x y : Reg) (s : State) : Answer :=
  flaggedOp s x (x == rf || y == rf) (s.reg x - s.reg y) (noBorrow (s.reg x) (s.reg y))

/-- `SHR Rx`: a logical shift by one in place, the bit shifted out in `RF`; the `y` field is ignored (R168, R173,
R111; of `RF` R172). -/
def execShr (x _y : Reg) (s : State) : Answer :=
  flaggedOp s x (x == rf) (s.reg x >>> 1) (shiftedOutRight (s.reg x))

/-- `SUBN Rx, Ry`: `R[y] - R[x]` modulo 256 into `R[x]`, and no-borrow in `RF` (R169; with `RF` as an operand R172). -/
def execSubn (x y : Reg) (s : State) : Answer :=
  flaggedOp s x (x == rf || y == rf) (s.reg y - s.reg x) (noBorrow (s.reg y) (s.reg x))

/-- `SHL Rx`: a shift by one in place, the bit shifted out in `RF`; the `y` field is ignored (R170, R173, R111; of
`RF` R172). -/
def execShl (x _y : Reg) (s : State) : Answer :=
  flaggedOp s x (x == rf) (s.reg x <<< 1) (shiftedOutLeft (s.reg x))

end Sys2Proof.Machine
end

