-- ==== Sys2Proof/Machine/ControlFlow.lean ====
section
/-! DEFINITION. `RET`, `JP`, `CALL`, `JPO` (spec file 41_control_flow.md). -/

namespace Sys2Proof.Machine

/-- `RET`: `StackUnderflow` on an empty stack, else `pc` is the popped value, with no further advance (R140). -/
def execRet (s : State) : Answer :=
  match popReturn s with
  | none => raise (.stackUnderflow s.pc)
  | some (target, t) => .next (jumpTo t target)

/-- `JP nnn`: `pc <- zext_16(nnn)` (R141). -/
def execJp (nnn : Addr12) (s : State) : Answer := .next (jumpTo s (addressOf nnn))

/-- `CALL nnn`: `StackOverflow` on a full stack, else the address of the next instruction is pushed and `pc` is the
target (R142). -/
def execCall (nnn : Addr12) (s : State) : Answer :=
  match pushReturn s (s.pc + 2#16) with
  | none => raise (.stackOverflow s.pc)
  | some t => .next (jumpTo t (addressOf nnn))

/-- `JPO nnn`: `pc <- R[0] + nnn`, whatever the other bits are, and not reduced modulo 4096 (R143). -/
def execJpo (nnn : Addr12) (s : State) : Answer := .next (jumpTo s (widen (s.reg 0) + addressOf nnn))

end Sys2Proof.Machine
end

