-- ==== Sys2Proof/Machine/Display.lean ====
section
/-! DEFINITION. `CLS`, `RND`, `DRW` (spec file 45_display_random.md). -/

namespace Sys2Proof.Machine

/-- `CLS`: every pixel 0, and redraw (R190). -/
def execCls (s : State) : Answer := .next (advance (requestRedraw (setScreen s blankScreen)))

/-- `RND Rx, kk`: `R[x] <- rnd & kk` (R191). -/
def execRnd (x : Reg) (kk : Byte) (s : State) : Answer :=
  let d := takeRandom s
  .next (advance (setReg d.2 x (d.1 &&& kk)))

/-- `DRW Rx, Ry, n`: the sprite at `I` is XORed onto the screen at the coordinates read first, the collision goes to
`RF` last, and redraw (R192, P-R192). -/
def execDrw (x y : Reg) (n : RowCount) (s : State) : Answer :=
  let cv := drawRows s (s.reg x) (s.reg y) n.val
  .next (advance (requestRedraw (setReg (setScreen s cv.1) rf (flagByte cv.2))))

end Sys2Proof.Machine
end

