-- ==== Sys2Proof/Machine/IndexMemory.lean ====
section
/-! DEFINITION. `LDX`, `ADDX`, `FONT`, `BCD`, `STM`, `LDM` (spec file 44_index_memory.md). -/

namespace Sys2Proof.Machine

/-- `LDX nnn`: `I <- zext_16(nnn)` (R180). -/
def execLdx (nnn : Addr12) (s : State) : Answer := .next (advance (setIdx s (addressOf nnn)))

/-- `ADDX Rx`: `I <- (I + R[x]) mod 65536`, no flag (R181). -/
def execAddx (x : Reg) (s : State) : Answer := .next (advance (setIdx s (s.idx + widen (s.reg x))))

/-- `FONT Rx`: `I <- R[x] * 5`, the whole register value multiplied (R182). -/
def execFont (x : Reg) (s : State) : Answer := .next (advance (setIdx s (widen (s.reg x) * 5)))

/-- `BCD Rx`: the three decimal digits at `I`, `I+1`, `I+2`; `I` unchanged (R183). -/
def execBcd (x : Reg) (s : State) : Answer :=
  let s1 := memWrite s (indexAddr s 0) (hundreds (s.reg x))
  let s2 := memWrite s1 (indexAddr s 1) (tens (s.reg x))
  let s3 := memWrite s2 (indexAddr s 2) (units (s.reg x))
  .next (advance s3)

/-- `STM Rx`: registers `R[0..x]` to memory from `I`; `I` unchanged (R184). -/
def execStm (x : Reg) (s : State) : Answer := .next (advance (storeBlock s (x.val + 1)))

/-- `LDM Rx`: registers `R[0..x]` from memory from `I`; `I` unchanged (R185). -/
def execLdm (x : Reg) (s : State) : Answer := .next (advance (loadBlock s (x.val + 1)))

end Sys2Proof.Machine
end

