-- ==== Sys2Proof/Machine/KeysTimers.lean ====
section
/-! DEFINITION. `SKP`, `SKNP`, `LDDT`, `WAITK`, `STDT`, `STST` (spec file 46_keys_timers.md). -/

namespace Sys2Proof.Machine

/-- `SKP Rx`: skip if the key `R[x]` is down; 16 and above name no key (R200, R206). -/
def execSkp (x : Reg) (s : State) : Answer := .next (skipIf s (keyPressed s x))

/-- `SKNP Rx`: skip if the key `R[x]` is not down (R201, R206). -/
def execSknp (x : Reg) (s : State) : Answer := .next (skipIf s (!keyPressed s x))

/-- `LDDT Rx`: `R[x] <- DT`, before this step's tick (R202). -/
def execLddt (x : Reg) (s : State) : Answer := .next (advance (setReg s x s.dt))

/-- `WAITK Rx`: with no key down nothing changes, `pc` included; else the lowest key's number goes to `R[x]` (R203). -/
def execWaitk (x : Reg) (s : State) : Answer :=
  match lowestKey s.keys with
  | none => .next s
  | some k => .next (advance (setReg s x (BitVec.ofNat 8 k)))

/-- `STDT Rx`: `DT <- R[x]`; the tick of the same step follows (R204, R207). -/
def execStdt (x : Reg) (s : State) : Answer := .next (advance (setDelay s (s.reg x)))

/-- `STST Rx`: `ST <- R[x]`; the tick of the same step follows (R205, R207). -/
def execStst (x : Reg) (s : State) : Answer := .next (advance (setSound s (s.reg x)))

end Sys2Proof.Machine
end

