-- ==== Sys2Proof/Machine/Skips.lean ====
section
/-! DEFINITION. `SEI`, `SNEI`, `SER`, `SNER` (spec file 42_skips.md). -/

namespace Sys2Proof.Machine

/-- `SEI Rx, kk`: skip if `R[x] = kk` (R151). -/
def execSei (x : Reg) (kk : Byte) (s : State) : Answer := .next (skipIf s (s.reg x == kk))

/-- `SNEI Rx, kk`: skip if `R[x] != kk` (R152). -/
def execSnei (x : Reg) (kk : Byte) (s : State) : Answer := .next (skipIf s (s.reg x != kk))

/-- `SER Rx, Ry`: skip if `R[x] = R[y]` (R153). -/
def execSer (x y : Reg) (s : State) : Answer := .next (skipIf s (s.reg x == s.reg y))

/-- `SNER Rx, Ry`: skip if `R[x] != R[y]` (R154). -/
def execSner (x y : Reg) (s : State) : Answer := .next (skipIf s (s.reg x != s.reg y))

end Sys2Proof.Machine
end

