-- ==== Sys2Proof/Machine/Step.lean ====
section
/-! DEFINITION. One step of the CORE (spec rules R120, R129) and the placing of an instruction where it will be
fetched. -/

namespace Sys2Proof.Machine

/-- `STEP`, in the order of P-R129: fetch, decode, execute, tick, report. A failure answers no state, so nothing has
changed (R130). -/
def step (s : State) : Host.Outcome State Fault Refusal :=
  match fetch s with
  | .error f => raise f
  | .ok w =>
    match decodeWord w with
    | some i => finishStep (exec i (beginStep s))
    | none => finishStep (execUnrecognized w (beginStep s))

/-- The state with an instruction's word stored at `pc`, high byte first, where the next step fetches it (R64, R121;
log 9). With `pc > 4094` no address would be fetched from and the state is left as it is. -/
def State.withFetchWord (s : State) (nbits w : Nat) : State :=
  if 4094 < s.pc.toNat then s
  else { s with mem := s.mem.writeWord s.pc.toNat (wordOfTableBits nbits w) }

end Sys2Proof.Machine
end

