-- ==== Sys2Proof/Machine/Transactions.lean ====
section
/-! DEFINITION. The five transactions through which the host drives the CORE (spec rules R76 to R78, R224, R225, R228,
R240 to R243). Each is atomic: the host has no move inside a step (R254; log 14). -/

namespace Sys2Proof.Machine

/-- `RESET`: every item at its reset value, with the parameter `FONT` of this run (R228, R240, R243). The draws already
made and the bytes the host has presented are not the CORE's, and are kept (log 12). -/
def hostReset (s : State) : State := { State.resetWith s.mem.font with draws := s.draws, rndIn := s.rndIn }

/-- `M[a + k] <- image[k]` for every byte of the image, in order (R76). -/
def Memory.writeBytes (m : Memory) (a : Nat) : List Byte → Memory
  | [] => m
  | b :: rest => (m.write a b).writeBytes (a + 1) rest

/-- `LOAD(image)`: the bytes from address 512 on and nothing else (R76); an image over 3584 bytes is rejected whole
(R77). -/
def hostLoad (image : List Byte) (s : State) : Answer :=
  if 3584 < image.length then raise (.imageTooLarge image.length)
  else .next { s with mem := s.mem.writeBytes 512 image }

/-- `KEY(k, down)`: `KEYS[k] <- down` (R224). -/
def hostKey (k : Fin 16) (down : Bool) (s : State) : State :=
  { s with keys := if down then s.keys ||| BitVec.twoPow 16 k.val else s.keys &&& ~~~(BitVec.twoPow 16 k.val) }

/-- The host reads one pixel of `FB` (R225, R228). -/
def hostPixel (s : State) (r : Fin 32) (c : Fin 64) : Bool := pixel s.fb r c

/-- The same, where the host reads `FB` as a flat row-major array: pixel `r * 64 + c` (R32, R225). -/
def hostPixelFlat (s : State) (k : Fin 2048) : Bool :=
  hostPixel s ⟨k.val / 64, by omega⟩ ⟨k.val % 64, by omega⟩

/-- A host transaction (R228). -/
inductive Transaction where
  | reset
  | load (image : List Byte)
  | key (k : Fin 16) (down : Bool)
  | step (rnd : Byte)
  | readScreen
  deriving DecidableEq, Repr

/-- What a transaction returns to the host (R120, R228). -/
inductive Reply where
  /-- `RESET` and `KEY` return nothing -/
  | silent
  /-- a `LOAD` that succeeded -/
  | loaded
  /-- a step that succeeded: `Ok{redraw_needed, tone_active, diag}` -/
  | stepped (out : StepOutput)
  /-- a step or a load that failed: `Fail(cause, info)` -/
  | failed (f : Fault)
  /-- the 2048 pixel bits -/
  | screen (fb : Framebuffer)
  /-- the step met an instruction without a meaning; no instruction of this model is -/
  | declined (r : Refusal)
  deriving DecidableEq, Repr

/-- `STEP(rnd)` as the function of R120, `State × rnd -> State × Result`: the byte is presented for this one step, and
after a failure the state is the state before it (R130). -/
def hostStep (rnd : Byte) (s : State) : State × Reply :=
  match step { s with rndIn := [rnd] } with
  | .next t => ({ t with rndIn := [] }, .stepped t.out)
  | .fault f => (s, .failed f)
  | .refused r => (s, .declined r)

/-- What a transaction does to the state and what it returns (R228). -/
def transact (tx : Transaction) (s : State) : State × Reply :=
  match tx with
  | .reset => (hostReset s, .silent)
  | .load image =>
    match hostLoad image s with
    | .next t => (t, .loaded)
    | .fault f => (s, .failed f)
    | .refused r => (s, .declined r)
  | .key k down => (hostKey k down s, .silent)
  | .step rnd => hostStep rnd s
  | .readScreen => (s, .screen s.fb)

end Sys2Proof.Machine
end

