-- ==== Sys2Proof/Safety.lean ====
section
/-! DEFINITION. The terms claims are made in: what an instruction may change (its frame), which instruction a step
runs, the invariant of a run, the states a host can bring the CORE to, and the whole-machine notions of the spec's
prose (dead stack slots R29, parked states R252). -/

namespace Sys2Proof.Machine

/-! ## Frames -/

/-- What an instruction may change, apart from `pc`; by default nothing. The key mask and the parameter `FONT` are no
field: no instruction may change them (R31, R8). -/
structure Writes where
  /-- the registers that may change -/
  regs : Reg → Bool := fun _ => false
  /-- `I` may change -/
  idx : Bool := false
  /-- `SP` and `STK` may change -/
  stack : Bool := false
  /-- `DT` may change -/
  dt : Bool := false
  /-- `ST` may change -/
  st : Bool := false
  /-- `FB` may change -/
  screen : Bool := false
  /-- the addresses of `M` that may change -/
  mem : Nat → Bool := fun _ => false
  /-- free values may be drawn and presented bytes used -/
  draws : Bool := false
  /-- `redraw_needed` may change -/
  redraw : Bool := false

/-- `t` agrees with `s` on everything but `pc` and what `w` lets change. Memory is compared through the read of one
byte, at every address. -/
structure Frame (w : Writes) (s t : State) : Prop where
  regs : ∀ r, w.regs r = false → t.reg r = s.reg r
  idx : w.idx = false → t.idx = s.idx
  stack : w.stack = false → t.sp = s.sp ∧ t.stk = s.stk
  dt : w.dt = false → t.dt = s.dt
  st : w.st = false → t.st = s.st
  keys : t.keys = s.keys
  screen : w.screen = false → t.fb = s.fb
  font : t.mem.font = s.mem.font
  mem : ∀ a, w.mem a = false → t.mem.read a = s.mem.read a
  draws : w.draws = false → t.draws = s.draws ∧ t.rndIn = s.rndIn
  redraw : w.redraw = false → t.out.redrawNeeded = s.out.redrawNeeded
  output : t.out.toneActive = s.out.toneActive ∧ t.out.diag = s.out.diag

/-- The addresses `(I + k) mod 4096` for `k` below `n`: where `BCD` and `STM` store (R67, R186). -/
def blockAddrs (s : State) (n : Nat) (a : Nat) : Bool := (List.range n).any (fun k => a == effAddr s k)

/-- Everything but `pc` that each instruction may change, in the state it starts from: the table of R22 for the
registers, R27 to R32 and R67 for the rest. `WAITK` is listed with its register, which it writes only when a key is
down. -/
def writesOf (i : Instr) (s : State) : Writes :=
  match i with
  | .cls => { screen := true, redraw := true }
  | .ret => { stack := true }
  | .jp _ => {}
  | .call _ => { stack := true }
  | .sei _ _ => {}
  | .snei _ _ => {}
  | .ser _ _ => {}
  | .ldi x _ => { regs := fun r => r == x }
  | .addi x _ => { regs := fun r => r == x }
  | .mov x _ => { regs := fun r => r == x }
  | .or x _ => { regs := fun r => r == x }
  | .and x _ => { regs := fun r => r == x }
  | .xor x _ => { regs := fun r => r == x }
  | .add x y => { regs := fun r => r == x || r == rf, draws := x == rf || y == rf }
  | .sub x y => { regs := fun r => r == x || r == rf, draws := x == rf || y == rf }
  | .shr x _ => { regs := fun r => r == x || r == rf, draws := x == rf }
  | .subn x y => { regs := fun r => r == x || r == rf, draws := x == rf || y == rf }
  | .shl x _ => { regs := fun r => r == x || r == rf, draws := x == rf }
  | .sner _ _ => {}
  | .ldx _ => { idx := true }
  | .jpo _ => {}
  | .rnd x _ => { regs := fun r => r == x, draws := true }
  | .drw _ _ _ => { regs := fun r => r == rf, screen := true, redraw := true }
  | .skp _ => {}
  | .sknp _ => {}
  | .lddt x => { regs := fun r => r == x }
  | .waitk x => { regs := fun r => r == x && s.keys != 0 }
  | .stdt _ => { dt := true }
  | .stst _ => { st := true }
  | .addx _ => { idx := true }
  | .font _ => { idx := true }
  | .bcd _ => { mem := blockAddrs s 3 }
  | .stm x => { mem := blockAddrs s (x.val + 1) }
  | .ldm x => { regs := fun r => decide (r ≤ x) }

/-! ## What a step runs -/

/-- The step from `s` fetches and decodes the instruction `i` (R121, R122). -/
def Runs (s : State) (i : Instr) : Prop := s.pc.toNat ≤ 4094 ∧ decodeWord (wordAt s.mem s.pc) = some i

/-- The step from `s` fetches a word that is no instruction (R100). -/
def RunsUnrecognized (s : State) : Prop := s.pc.toNat ≤ 4094 ∧ decodeWord (wordAt s.mem s.pc) = none

/-- `k` successful steps lead from `s` to `t`. -/
def StepsTo (k : Nat) (s t : State) : Prop := core.run k s = .next t

/-! ## Sprites -/

/-- The sprite of `DRW` with coordinates `vx`, `vy` and `n` rows has a 1 bit at the pixel in row `r`, column `c`: some
sprite row `row` and column `col` land there (R192, R194) and bit `7 - col` of the byte at `I + row` is 1. -/
def SpriteHits (s : State) (vx vy : Byte) (n : Nat) (r : Fin 32) (c : Fin 64) : Prop :=
  ∃ row col, row < n ∧ col < 8 ∧ r.val = (vy.toNat + row) % 32 ∧ c.val = (vx.toNat + col) % 64 ∧
    (memRead s (indexAddr s row)).getLsbD (7 - col) = true

/-! ## Invariants -/

/-- What holds in every state a run reaches: `pc <= 4350`, every live stack entry is at most 4096 (R25), and the memory
is in its canonical form (log 11). `0 <= SP <= 16` (R29) is a fact of the type of `SP`. -/
structure Inv (s : State) : Prop where
  pc_le : s.pc.toNat ≤ 4350
  live_le : ∀ k : Fin 16, k.val < s.sp.val → s.stk[k].toNat ≤ 4096
  mem_wf : s.mem.wf

/-- The states the host can bring the CORE to: `RESET` with some `FONT` first, then any transactions (R228, R242). -/
inductive Reachable : State → Prop where
  | reset (font : Font) : Reachable (State.resetWith font)
  | transact (tx : Transaction) (s : State) : Reachable s → Reachable (transact tx s).1

/-! ## Dead stack slots -/

/-- `s` and `t` agree on everything but stack slots that are not live (R28, R29). -/
def SameLive (s t : State) : Prop :=
  { t with stk := s.stk } = s ∧ ∀ k : Fin 16, k.val < s.sp.val → t.stk[k] = s.stk[k]

/-- The answers of two steps agree on everything but dead stack slots. -/
def SameLiveAnswer : Answer → Answer → Prop
  | .next s, .next t => SameLive s t
  | .fault f, .fault g => f = g
  | .refused r, .refused q => r = q
  | _, _ => False

/-! ## Parked states -/

/-- R252: the word at `pc` is `JP pc`, that is `0x1000 | pc`, with `pc <= 4094`. -/
def Parked (s : State) : Prop := s.pc.toNat ≤ 4094 ∧ wordAt s.mem s.pc = 0x1000 ||| s.pc

end Sys2Proof.Machine
end

