-- ==== Sys2Proof/Certificates/Slice0/Obligations.lean ====
section
/-! DEFINITION. The statements about the CORE that are left to the provers. Every one is about all states: no program is
named, and the parameter `FONT` is arbitrary. Words are written as numbers, from the bit places of spec rule R91. -/

open Sys2Proof Sys2Proof.Machine

/-! ## Encoding (spec file 30_encoding.md) -/

/-- Words written out from R92's patterns, one or more for each value of `w[15:12]`, decode to the instruction they
stand for, and three words outside the opcode map to none. The numerals marked † in R92 are the spec's own (log 6). -/
def Obligations.SampleWordsDecodeToTheirInstructions : Prop :=
  decodeWord 0x00E0 = some .cls ∧ decodeWord 0x00EE = some .ret ∧ decodeWord 0x1234 = some (.jp 0x234) ∧
  decodeWord 0x220C = some (.call 0x20C) ∧ decodeWord 0xB300 = some (.jpo 0x300) ∧
  decodeWord 0x3A42 = some (.sei 10 0x42) ∧ decodeWord 0x4A42 = some (.snei 10 0x42) ∧
  decodeWord 0x5120 = some (.ser 1 2) ∧ decodeWord 0x9120 = some (.sner 1 2) ∧
  decodeWord 0x6A7F = some (.ldi 10 0x7F) ∧ decodeWord 0x7101 = some (.addi 1 1) ∧ decodeWord 0x8124 = some (.add 1 2) ∧
  decodeWord 0x812E = some (.shl 1 2) ∧ decodeWord 0xA300 = some (.ldx 0x300) ∧
  decodeWord 0xF155 = some (.stm 1) ∧ decodeWord 0xC30F = some (.rnd 3 0x0F) ∧
  decodeWord 0xD125 = some (.drw 1 2 5) ∧ decodeWord 0xE29E = some (.skp 2) ∧
  decodeWord 0xF20A = some (.waitk 2) ∧ decodeWord 0x0000 = none ∧ decodeWord 0x8128 = none ∧
  decodeWord 0x9121 = none

/-- Decode of encode is the identity on every instruction, at every operand value its fields admit, and the decoder on
bytes takes exactly the two bytes of the instruction, high byte first (R90, R92). The numerals are the spec's own (log
6). -/
def Obligations.EncodedInstructionDecodesToItself : Prop :=
  ∀ (i : Instr) (rest : List Byte),
    decodeWord (encode i) = some i ∧ decode (encodeBytes i ++ rest) = .ok (i, rest)

/-- Encode of decode is the identity: each word has at most one meaning and no bit of it is dropped (R91, R92). The
numerals are the spec's own (log 6). -/
def Obligations.DecodedWordIsTheEncodingOfItsInstruction : Prop :=
  ∀ (w : Word) (i : Instr), decodeWord w = some i → encode i = w

/-- R92's last sentences: a word selects a row exactly when its masked bits are the row's match, at most one row does,
and the decoder gives the instruction of that row; a word that selects none is unrecognized. The numerals of the rows
are the spec's own (log 6). -/
def Obligations.WordSelectsTheRowOfItsInstruction : Prop :=
  (∀ (w : Word), ∀ row ∈ opcodeRows,
    (w &&& row.mask = row.pattern ↔ ∃ i, decodeWord w = some i ∧ i.mnemonic = row.mnemonic)) ∧
  (∀ (w : Word), decodeWord w = none ↔ ∀ row ∈ opcodeRows, w &&& row.mask ≠ row.pattern) ∧
  (∀ (w : Word), ∀ p ∈ opcodeRows, ∀ q ∈ opcodeRows,
    w &&& p.mask = p.pattern → w &&& q.mask = q.pattern → p = q)

/-- The unrecognized words are exactly those R95 to R99 list: families 0, 5, 8, 9, E and F have some, no other family
has any (R101). How strictly the families compare is the spec's decision D14 (log 13). The numerals are the spec's own
(log 6). -/
def Obligations.UnrecognizedWordsAreTheGapsOfTheOpcodeMap : Prop :=
  ∀ w : Word, decodeWord w = none ↔
    (w.toNat / 4096 = 0 ∧ w.toNat ≠ 0x00E0 ∧ w.toNat ≠ 0x00EE) ∨
    (w.toNat / 4096 = 5 ∧ w.toNat % 16 ≠ 0) ∨
    (w.toNat / 4096 = 8 ∧ 8 ≤ w.toNat % 16 ∧ w.toNat % 16 ≠ 0xE) ∨
    (w.toNat / 4096 = 9 ∧ w.toNat % 16 ≠ 0) ∨
    (w.toNat / 4096 = 0xE ∧ w.toNat % 256 ∉ [0x9E, 0xA1]) ∨
    (w.toNat / 4096 = 0xF ∧ w.toNat % 256 ∉ [0x07, 0x0A, 0x15, 0x18, 0x1E, 0x29, 0x33, 0x55, 0x65])

/-! ## The step (spec file 40_step.md) -/

/-- When the two bytes at `pc`, high byte first, decode to `i`, the step is the execute phase of `i` on the state with
the outputs cleared, then the tick of both timers and the report of `tone_active`; a failure of the execute phase is
the failure of the step (P-R129). That a failure leaves the state is the spec's decision D2 (log 8). -/
def Obligations.StepRunsTheDecodedInstruction : Prop :=
  ∀ (s : State) (i : Instr), s.pc.toNat ≤ 4094 →
    decodeWord (s.mem.read s.pc.toNat ++ s.mem.read (s.pc.toNat + 1)) = some i →
    (∀ u, exec i { s with out := StepOutput.clear } = .next u →
      step s = .next { u with
        dt := tickDown u.dt, st := tickDown u.st, out := { u.out with toneActive := tickDown u.st != 0 } }) ∧
    (∀ f, exec i { s with out := StepOutput.clear } = .fault f → step s = .fault f)

/-- The word that `withFetchWord` places is the one the next step fetches and runs, and placing it changes no other
byte and nothing but memory (log 9). -/
def Obligations.PlacedInstructionIsTheOneTheStepRuns : Prop :=
  ∀ (s : State) (i : Instr), s.pc.toNat ≤ 4094 →
    Runs (s.withFetchWord 16 (encode i).toNat) i ∧
    step (s.withFetchWord 16 (encode i).toNat) =
      finishStep (exec i (beginStep (s.withFetchWord 16 (encode i).toNat))) ∧
    { s.withFetchWord 16 (encode i).toNat with mem := s.mem } = s ∧
    ∀ a, a ≠ s.pc.toNat → a ≠ s.pc.toNat + 1 →
      (s.withFetchWord 16 (encode i).toNat).mem.read a = s.mem.read a

/-- R126 and R213, with the form of the report as the spec's decision D25 has it (log 5): an unrecognized word is a
no-op that advances `pc` by 2, ticks the timers, and reports the word and its address. -/
def Obligations.UnrecognizedWordIsANoOpWithADiagnostic : Prop :=
  ∀ s : State, RunsUnrecognized s →
    ∃ t, step s = .next t ∧ t = { s with pc := s.pc + 2#16, dt := t.dt, st := t.st, out := t.out } ∧
      t.dt.toNat = s.dt.toNat - 1 ∧ t.st.toNat = s.st.toNat - 1 ∧
      t.out = { redrawNeeded := false, toneActive := t.st != 0,
                diag := some { word := wordAt s.mem s.pc, pc := s.pc } }

/-- R121 with the spec's decisions D3 and D4 (log 13): a step that begins with `pc > 4094` fails, 4095 included, and
no step that begins with `pc <= 4094` fails so. -/
def Obligations.StepBeyondTheLastFetchAddressFails : Prop :=
  ∀ s : State, (4094 < s.pc.toNat → step s = .fault (.pcOutOfRange s.pc)) ∧
    (s.pc.toNat ≤ 4094 → ∀ pc, step s ≠ .fault (.pcOutOfRange pc))

/-- R64: the word fetched has the byte at `pc` as its high byte and the byte at `pc + 1` as its low byte, whatever the
parity of `pc` and in every state. -/
def Obligations.FetchedWordIsBigEndian : Prop :=
  ∀ s : State, s.pc.toNat ≤ 4094 →
    ∃ w, fetch s = .ok w ∧ w.toNat = 256 * (s.mem.read s.pc.toNat).toNat + (s.mem.read (s.pc.toNat + 1)).toNat

/-- R210 and R217: a step fails exactly in the three reported ways, each under its own condition and with its own
`info`, and it never declines an instruction: every word is run or reported. The failures are the spec's decisions D2
to D6 (log 8, log 13). -/
def Obligations.StepFailsOnlyInTheThreeReportedWays : Prop :=
  ∀ s : State,
    (∀ f, step s = .fault f ↔
      (4094 < s.pc.toNat ∧ f = .pcOutOfRange s.pc) ∨
      ((∃ nnn, Runs s (.call nnn)) ∧ s.sp.val = 16 ∧ f = .stackOverflow s.pc) ∨
      (Runs s .ret ∧ s.sp.val = 0 ∧ f = .stackUnderflow s.pc)) ∧
    (∀ r, step s ≠ .refused r)

/-- R130, R214 and R215, the spec's decision D2 (log 8): after a failed `STEP` the state is the state before it, and
every later `STEP` on it fails in the same way, whatever byte the host presents. -/
def Obligations.FailedStepChangesNothingAndFailsAgain : Prop :=
  ∀ (s : State) (rnd : Byte) (f : Fault), (hostStep rnd s).2 = .failed f →
    (hostStep rnd s).1 = s ∧ ∀ rnd', hostStep rnd' s = (s, .failed f)

/-- R127: after every successful step each timer is one less than the execute phase left it, and not below 0, whatever
ran: less one than the value written where the step wrote it, less one than before in every other case; `LDDT` reads
`DT` before the tick; and a failed step does not tick. That last clause is R130's, by the spec's decision D2 (log 8). -/
def Obligations.TimersTickOncePerSuccessfulStep : Prop :=
  (∀ s t : State, step s = .next t →
    (∀ x, Runs s (.stdt x) → t.dt.toNat = (s.reg x).toNat - 1) ∧
    ((∀ x, ¬ Runs s (.stdt x)) → t.dt.toNat = s.dt.toNat - 1) ∧
    (∀ x, Runs s (.stst x) → t.st.toNat = (s.reg x).toNat - 1) ∧
    ((∀ x, ¬ Runs s (.stst x)) → t.st.toNat = s.st.toNat - 1) ∧
    (∀ x, Runs s (.lddt x) → t.reg x = s.dt)) ∧
  (∀ (s : State) (rnd : Byte) (f : Fault), (hostStep rnd s).2 = .failed f →
    (hostStep rnd s).1.dt = s.dt ∧ (hostStep rnd s).1.st = s.st)

/-- R24: where `pc` goes in a successful step. `JP`, `CALL`, `JPO` set their targets and `RET` the popped value; a
skip adds 4 when its condition holds and 2 when it fails (the two key skips here for the numbers 0 to 15 that name a
key); `WAITK` with no key down leaves `pc`; every other instruction and every unrecognized word adds 2. All sums are
modulo 65536. -/
def Obligations.StepSetsThePcAsTheInstructionSays : Prop :=
  ∀ s t : State, step s = .next t →
    (∀ nnn, Runs s (.jp nnn) → t.pc = addressOf nnn) ∧
    (∀ nnn, Runs s (.call nnn) → t.pc = addressOf nnn) ∧
    (∀ nnn, Runs s (.jpo nnn) → t.pc = widen (s.reg 0) + addressOf nnn) ∧
    (∀ k : Fin 16, Runs s .ret → s.sp.val = k.val + 1 → t.pc = s.stk[k]) ∧
    (∀ x kk, Runs s (.sei x kk) → t.pc = s.pc + (if s.reg x = kk then 4#16 else 2#16)) ∧
    (∀ x kk, Runs s (.snei x kk) → t.pc = s.pc + (if s.reg x ≠ kk then 4#16 else 2#16)) ∧
    (∀ x y, Runs s (.ser x y) → t.pc = s.pc + (if s.reg x = s.reg y then 4#16 else 2#16)) ∧
    (∀ x y, Runs s (.sner x y) → t.pc = s.pc + (if s.reg x ≠ s.reg y then 4#16 else 2#16)) ∧
    (∀ x, ∀ k : Fin 16, Runs s (.skp x) → (s.reg x).toNat = k.val →
      t.pc = s.pc + (if s.keys.getLsbD k.val = true then 4#16 else 2#16)) ∧
    (∀ x, ∀ k : Fin 16, Runs s (.sknp x) → (s.reg x).toNat = k.val →
      t.pc = s.pc + (if s.keys.getLsbD k.val = true then 2#16 else 4#16)) ∧
    (∀ x, Runs s (.waitk x) → t.pc = if s.keys = 0 then s.pc else s.pc + 2#16) ∧
    ((∀ i, Runs s i → i.mnemonic ∉
        ["JP", "CALL", "JPO", "RET", "SEI", "SNEI", "SER", "SNER", "SKP", "SKNP", "WAITK"]) → t.pc = s.pc + 2#16)

/-- R128, with the spec's decisions D20 and D33 (log 13): `redraw_needed` is 1 exactly when the step ran `CLS` or
`DRW`, `tone_active` exactly when `ST` is not 0 after the tick, and a diagnostic is reported exactly for an
unrecognized word. -/
def Obligations.EffectFlagsReportTheStep : Prop :=
  ∀ s t : State, step s = .next t →
    (t.out.redrawNeeded = true ↔ Runs s .cls ∨ ∃ x y n, Runs s (.drw x y n)) ∧
    (t.out.toneActive = true ↔ t.st.toNat ≠ 0) ∧
    (∀ d, t.out.diag = some d ↔ RunsUnrecognized s ∧ d = { word := wordAt s.mem s.pc, pc := s.pc })

/-- R34, the spec's decision D20: what one step returned has no influence on a later step (log 5). -/
def Obligations.EffectFlagsAreNotRemembered : Prop :=
  ∀ (s : State) (o : StepOutput), step { s with out := o } = step s

/-- R29: the contents of stack slots that are not live cannot be observed. Two states that differ only there answer a
step in the same way, and the next states again differ only there. So the model's own reset contents of the slots (log
2) reach no result. -/
def Obligations.DeadStackSlotsAreUnobservable : Prop :=
  ∀ s t : State, SameLive s t → SameLiveAnswer (step s) (step t)

/-- R132: the random byte and the free values matter only to `RND` and to the words that break the flag-register
constraint (`wellFormed` is false of exactly those, log 10). For every other instruction, a successful step from a
state with other bytes presented and another count of draws is the same step. -/
def Obligations.RandomInputMattersOnlyToRndAndFlagOperandWords : Prop :=
  ∀ (s t : State) (i : Instr) (d : Nat) (l : List Byte), Runs s i → i.wellFormed = true →
    (∀ x kk, i ≠ .rnd x kk) → step s = .next t →
    step { s with draws := d, rndIn := l } = .next { t with draws := d, rndIn := l }

/-! ## Whole-machine rules -/

/-- What each instruction may change besides `pc`: the table of R22, with R27 to R32 and R67, as `writesOf` lists it.
No instruction changes the key mask (R31) or the parameter `FONT`. -/
def Obligations.InstructionsChangeOnlyWhatTheirTableRowNames : Prop :=
  ∀ (i : Instr) (s t : State), exec i s = .next t → Frame (writesOf i s) s t

/-- The invariant holds after `RESET`, with every `FONT` (R25, R29, R37). That memory is in its canonical form is the
model's own clause (log 11). -/
def Obligations.InvariantHoldsAtReset : Prop := ∀ font : Font, Inv (State.resetWith font)

/-- Every step from a state that meets the invariant (R25, R29, and the canonical form of memory, log 11) leads to one
that meets it. The form of memory is the model's own. -/
def Obligations.EveryStepKeepsTheInvariant : Prop :=
  ∀ s t : State, Inv s → step s = .next t → Inv t

/-- Every transaction of the host, whatever it loads, presses or presents and whether it succeeds or fails, leads from
a state that meets the invariant to one that meets it (R25, R29, R228). That memory is in its canonical form is the
model's own clause (log 11). -/
def Obligations.EveryTransactionKeepsTheInvariant : Prop :=
  ∀ (tx : Transaction) (s : State), Inv s → Inv (transact tx s).1

/-- R25: in every state the host can bring the CORE to, whatever it loads, presses, presents and resets, `pc <= 4350`,
`SP` counts at most 16 entries, and the memory is in its canonical form, which is the model's own (log 11). -/
def Obligations.ReachableStatesMeetTheInvariant : Prop :=
  ∀ s : State, Reachable s → s.pc.toNat ≤ 4350 ∧ s.sp.val ≤ 16 ∧ Inv s

/-- Two memories of one `FONT` in canonical form that give the same byte at every address are the same data (log 11). -/
def Obligations.CanonicalMemoriesThatReadAlikeAreEqual : Prop :=
  ∀ m n : Memory, m.wf → n.wf → m.font = n.font → (∀ a, m.read a = n.read a) → m = n

/-- R79: a transaction that changes any byte of memory is `RESET`, `LOAD`, or a step that ran `BCD` or `STM`; and no
instruction reads memory but `DRW` and `LDM` (the fetch apart). With any other memory in its place, every other
instruction answers the same state but for memory, and in memory it stores the same bytes at the same addresses: each
byte of the two answers is the same in both, or is in both what it was before. -/
def Obligations.MemoryHasTheListedWritersAndReaders : Prop :=
  (∀ (tx : Transaction) (s : State) (a : Nat), (transact tx s).1.mem.read a ≠ s.mem.read a →
    tx = .reset ∨ (∃ image, tx = .load image) ∨
      ∃ rnd x, tx = .step rnd ∧ (Runs s (.bcd x) ∨ Runs s (.stm x))) ∧
  (∀ (i : Instr) (s t : State) (m : Memory), exec i s = .next t →
    (∀ x y n, i ≠ .drw x y n) → (∀ x, i ≠ .ldm x) →
    ∃ u, exec i { s with mem := m } = .next u ∧ { u with mem := t.mem } = t ∧ u.mem.font = m.font ∧
      ∀ a, u.mem.read a = t.mem.read a ∨ (u.mem.read a = m.read a ∧ t.mem.read a = s.mem.read a))

/-- R31: no step changes the key mask, and of the host's transactions only a key event and `RESET` do, whether they
succeed or fail; a key event sets or clears the one bit of its key and changes nothing else; no key is down after
`RESET`. The key event is the spec's decision D31 (log 13). -/
def Obligations.KeyMaskIsWrittenByTheHostOnly : Prop :=
  (∀ s t : State, step s = .next t → t.keys = s.keys) ∧
  (∀ (tx : Transaction) (s : State), tx ≠ .reset → (∀ k down, tx ≠ .key k down) →
    (transact tx s).1.keys = s.keys) ∧
  (∀ (s : State) (k j : Fin 16) (down : Bool),
    (transact (.key k down) s).1.keys.getLsbD j.val = (if j = k then down else s.keys.getLsbD j.val) ∧
    { (transact (.key k down) s).1 with keys := s.keys } = s) ∧
  (∀ s : State, (transact .reset s).1.keys = 0) ∧
  (∀ font : Font, (State.resetWith font).keys = 0)

/-- R37 and R240, the framebuffer by the spec's decision D7 (log 13): what `RESET` leaves, for every `FONT`, and that
nothing of the state before it but `FONT` matters (R243; the model's own fields aside, log 12). -/
def Obligations.ResetSetsEveryItem : Prop :=
  (∀ font : Font,
    (∀ r, (State.resetWith font).reg r = 0) ∧ (State.resetWith font).idx = 0 ∧
    (State.resetWith font).pc.toNat = 512 ∧ (State.resetWith font).sp.val = 0 ∧
    (State.resetWith font).dt = 0 ∧ (State.resetWith font).st = 0 ∧ (State.resetWith font).keys = 0 ∧
    (∀ r c, pixel (State.resetWith font).fb r c = false) ∧
    (∀ a (h : a < 80), (State.resetWith font).mem.read a = font[a]) ∧
    (∀ a, 80 ≤ a → (State.resetWith font).mem.read a = 0)) ∧
  (∀ s : State, hostReset s = { State.resetWith s.mem.font with draws := s.draws, rndIn := s.rndIn })

/-- R76 and R77, the spec's decision D17 (log 13): an image of at most 3584 bytes is written from 512 on, byte by
byte, and nothing else changes; a longer one is rejected with its length and nothing is written. -/
def Obligations.LoadWritesTheImageOrRejectsItWhole : Prop :=
  ∀ (image : List Byte) (s : State),
    (image.length ≤ 3584 → ∃ t, hostLoad image s = .next t ∧ { t with mem := s.mem } = s ∧
      t.mem.font = s.mem.font ∧
      (∀ k (h : k < image.length), t.mem.read (512 + k) = image[k]) ∧
      (∀ a, a < 512 ∨ 512 + image.length ≤ a → t.mem.read a = s.mem.read a)) ∧
    (3584 < image.length →
      transact (.load image) s = (s, .failed (.imageTooLarge image.length)))

/-- R74: the two bytes an `STM` stores at the address of the next instruction are the word the next step fetches. -/
def Obligations.StoredWordIsFetchedByTheNextStep : Prop :=
  ∀ (s t : State) (x p q : Reg), Runs s (.stm x) → step s = .next t →
    q.val = p.val + 1 → q ≤ x →
    effAddr s p.val = s.pc.toNat + 2 → effAddr s q.val = s.pc.toNat + 3 →
    ∃ w, fetch t = .ok w ∧ w.toNat = 256 * (s.reg p).toNat + (s.reg q).toNat

/-- R146: a `CALL` and then, at its target, a `RET` resume after the call with every slot of the stack as it was but
the first dead one, which holds the return address, and nothing else changed but the timers and the outputs. Rests on
the spec's decisions D5 and D6 (log 13). -/
def Obligations.CallThenReturnResumesAfterTheCall : Prop :=
  ∀ (s : State) (nnn : Addr12) (h : s.sp.val < 16), Runs s (.call nnn) → nnn.toNat ≤ 4094 →
    decodeWord (wordAt s.mem (addressOf nnn)) = some .ret →
    ∃ t, StepsTo 2 s t ∧
      t = { s with pc := s.pc + 2#16, stk := t.stk, dt := t.dt, st := t.st, out := t.out } ∧
      t.stk[s.sp.val] = s.pc + 2#16 ∧ (∀ k : Fin 16, k.val ≠ s.sp.val → t.stk[k] = s.stk[k]) ∧
      t.dt.toNat = s.dt.toNat - 2 ∧ t.st.toNat = s.st.toNat - 2 ∧
      t.out = { redrawNeeded := false, toneActive := t.st != 0, diag := none }

/-- R244 and R250: where memory is zero from `pc` up, `k` steps slide `k` words on, changing nothing but `pc`, the
timers and the outputs; from the state after `RESET`, 1792 steps succeed and the next one fails with `pc = 4096`. That
the zero word is no instruction is the spec's decision D14 (log 13). -/
def Obligations.ZeroFilledMemoryIsSlidThrough : Prop :=
  (∀ (s : State) (k : Nat), (∀ a, s.pc.toNat ≤ a → a < 4096 → s.mem.read a = 0) → s.pc.toNat + 2 * k ≤ 4096 →
    ∃ t, StepsTo k s t ∧ t.pc.toNat = s.pc.toNat + 2 * k ∧
      t = { s with pc := t.pc, dt := t.dt, st := t.st, out := t.out }) ∧
  (∀ font : Font, ∃ t, StepsTo 1792 (State.resetWith font) t ∧ step t = .fault (.pcOutOfRange 4096))

/-- R252, the spec's decision D29: a parked state steps to itself except for the timers, which count down to 0, and
`tone_active`, which follows `ST`. The numeral of `JP` is the spec's own (log 6), its decision D29 is log 13. -/
def Obligations.ParkedStateOnlyAgesItsTimers : Prop :=
  ∀ (s : State) (k : Nat), Parked s →
    ∃ t, StepsTo k s t ∧ t = { s with dt := t.dt, st := t.st, out := t.out } ∧
      t.dt.toNat = s.dt.toNat - k ∧ t.st.toNat = s.st.toNat - k ∧
      (0 < k → t.out = { redrawNeeded := false, toneActive := t.st != 0, diag := none })

/-- R203's property, by the spec's decision D12 (log 13): with no key down `WAITK` is run again and again, changing
nothing but the timers; once a key is down the next step stores its number and advances, and the key stays down. -/
def Obligations.WaitkPollsUntilAKeyIsDown : Prop :=
  ∀ (s : State) (x : Reg) (k : Nat), Runs s (.waitk x) → s.keys = 0 →
    ∃ t, StepsTo k s t ∧ t = { s with dt := t.dt, st := t.st, out := t.out } ∧
      t.dt.toNat = s.dt.toNat - k ∧ t.st.toNat = s.st.toNat - k ∧
      ∀ q : Fin 16, ∃ u, step (hostKey q true t) = .next u ∧ (u.reg x).toNat = q.val ∧ u.pc = s.pc + 2#16 ∧
        u.keys.getLsbD q.val = true

/-- R248: a value `v` written by `STDT` is read as `max(v - 1 - k, 0)` by an `LDDT` executed `k` steps after the step
that follows the write, if no step between writes the timer again. -/
def Obligations.DelayTimerIsReadWithItsSkew : Prop :=
  ∀ (s t u : State) (x y : Reg) (k : Nat), Runs s (.stdt x) → StepsTo (k + 1) s t →
    (∀ j v, 1 ≤ j → j ≤ k → StepsTo j s v → ∀ z, ¬ Runs v (.stdt z)) →
    Runs t (.lddt y) → step t = .next u → (u.reg y).toNat = (s.reg x).toNat - 1 - k

/-! ## Control transfer (spec file 41_control_flow.md) -/

/-- R141: `JP`, with its encoding; a target beyond 4094 is accepted here and the next step fails. The numeral of the
encoding is the spec's own (log 6). -/
def Obligations.JpSetsThePc : Prop :=
  ∀ (nnn : Addr12) (s : State),
    decodeWord (BitVec.ofNat 16 (0x1000 + nnn.toNat)) = some (.jp nnn) ∧
    ∃ t, exec (.jp nnn) s = .next t ∧ t.pc.toNat = nnn.toNat ∧ Frame {} s t ∧
      (4094 < nnn.toNat → step t = .fault (.pcOutOfRange t.pc))

/-- R143: `JPO`, with its encoding: always `R[0]`, and the sum is not reduced modulo 4096; beyond 4094 the next step
fails. The numeral of the encoding is the spec's own (log 6). -/
def Obligations.JpoAddsRegisterZero : Prop :=
  ∀ (nnn : Addr12) (s : State),
    decodeWord (BitVec.ofNat 16 (0xB000 + nnn.toNat)) = some (.jpo nnn) ∧
    ∃ t, exec (.jpo nnn) s = .next t ∧ t.pc.toNat = (s.reg 0).toNat + nnn.toNat ∧ Frame {} s t ∧
      (4094 < (s.reg 0).toNat + nnn.toNat → step t = .fault (.pcOutOfRange t.pc))

/-- R142, by the spec's decisions D5 and D6 (log 13): `CALL` saves the address of the next instruction as the newest
entry and jumps; with 16 live entries it fails. -/
def Obligations.CallSavesTheNextAddress : Prop :=
  ∀ (nnn : Addr12) (s : State),
    (∀ h : s.sp.val < 16, ∃ t, exec (.call nnn) s = .next t ∧ t.pc.toNat = nnn.toNat ∧
      t.sp.val = s.sp.val + 1 ∧ t.stk[s.sp.val] = s.pc + 2#16 ∧
      (∀ k : Fin 16, k.val ≠ s.sp.val → t.stk[k] = s.stk[k]) ∧ Frame { stack := true } s t) ∧
    (s.sp.val = 16 → exec (.call nnn) s = .fault (.stackOverflow s.pc))

/-- R140, by the spec's decision D5 (log 13): `RET` takes the newest entry off and continues there, with no further
advance, the slot keeping its contents; with no live entry it fails. -/
def Obligations.RetTakesTheNewestAddress : Prop :=
  ∀ s : State,
    (∀ (k : Fin 16), s.sp.val = k.val + 1 → ∃ t, exec .ret s = .next t ∧ t.pc = s.stk[k] ∧
      t.sp.val = k.val ∧ t.stk = s.stk ∧ Frame { stack := true } s t) ∧
    (s.sp.val = 0 → exec .ret s = .fault (.stackUnderflow s.pc))

/-! ## Skips (spec files 42_skips.md, 46_keys_timers.md) -/

/-- R151 to R154: the four register skips, with their encodings: `pc + 4` when the condition holds on the 8-bit
values, else `pc + 2`, and nothing else changes. The numerals of the encodings are the spec's own (log 6). -/
def Obligations.RegisterSkipsAddTwoMoreWhenTheConditionHolds : Prop :=
  ∀ (x y : Reg) (kk : Byte) (s : State),
    decodeWord (BitVec.ofNat 16 (0x3000 + 256 * x.val + kk.toNat)) = some (.sei x kk) ∧
    decodeWord (BitVec.ofNat 16 (0x4000 + 256 * x.val + kk.toNat)) = some (.snei x kk) ∧
    decodeWord (BitVec.ofNat 16 (0x5000 + 256 * x.val + 16 * y.val)) = some (.ser x y) ∧
    decodeWord (BitVec.ofNat 16 (0x9000 + 256 * x.val + 16 * y.val)) = some (.sner x y) ∧
    (∃ t, exec (.sei x kk) s = .next t ∧ Frame {} s t ∧
      t.pc = s.pc + (if (s.reg x).toNat = kk.toNat then 4#16 else 2#16)) ∧
    (∃ t, exec (.snei x kk) s = .next t ∧ Frame {} s t ∧
      t.pc = s.pc + (if (s.reg x).toNat ≠ kk.toNat then 4#16 else 2#16)) ∧
    (∃ t, exec (.ser x y) s = .next t ∧ Frame {} s t ∧
      t.pc = s.pc + (if (s.reg x).toNat = (s.reg y).toNat then 4#16 else 2#16)) ∧
    (∃ t, exec (.sner x y) s = .next t ∧ Frame {} s t ∧
      t.pc = s.pc + (if (s.reg x).toNat ≠ (s.reg y).toNat then 4#16 else 2#16))

/-- R200, R201 and R206, by the spec's decision D11 (log 13): the key skips test the key whose number `R[x]` holds; 16
and above name no key, and no key is never pressed. The numerals of the encodings are the spec's own (log 6). -/
def Obligations.KeySkipsTestTheKeyARegisterNames : Prop :=
  ∀ (x : Reg) (s : State),
    decodeWord (BitVec.ofNat 16 (0xE09E + 256 * x.val)) = some (.skp x) ∧
    decodeWord (BitVec.ofNat 16 (0xE0A1 + 256 * x.val)) = some (.sknp x) ∧
    (∃ t, exec (.skp x) s = .next t ∧ Frame {} s t ∧
      (∀ k : Fin 16, (s.reg x).toNat = k.val →
        t.pc = s.pc + (if s.keys.getLsbD k.val = true then 4#16 else 2#16)) ∧
      (16 ≤ (s.reg x).toNat → t.pc = s.pc + 2#16)) ∧
    (∃ t, exec (.sknp x) s = .next t ∧ Frame {} s t ∧
      (∀ k : Fin 16, (s.reg x).toNat = k.val →
        t.pc = s.pc + (if s.keys.getLsbD k.val = true then 2#16 else 4#16)) ∧
      (16 ≤ (s.reg x).toNat → t.pc = s.pc + 4#16))

/-! ## Register immediates and the register ALU (spec file 43_register_alu.md) -/

/-- R160 and R161: `LDI` and `ADDI`, with their encodings: one register, modulo 256, and no flag (`RF` changes only as
the destination). The numerals of the encodings are the spec's own (log 6). -/
def Obligations.ImmediatesWriteOneRegisterAndNoFlag : Prop :=
  ∀ (x : Reg) (kk : Byte) (s : State),
    decodeWord (BitVec.ofNat 16 (0x6000 + 256 * x.val + kk.toNat)) = some (.ldi x kk) ∧
    decodeWord (BitVec.ofNat 16 (0x7000 + 256 * x.val + kk.toNat)) = some (.addi x kk) ∧
    (∃ t, exec (.ldi x kk) s = .next t ∧ t.pc = s.pc + 2#16 ∧ t.reg x = kk ∧
      Frame { regs := fun r => r == x } s t) ∧
    (∃ t, exec (.addi x kk) s = .next t ∧ t.pc = s.pc + 2#16 ∧
      (t.reg x).toNat = ((s.reg x).toNat + kk.toNat) % 256 ∧ Frame { regs := fun r => r == x } s t)

/-- R162 to R165: `MOV`, `OR`, `AND`, `XOR`, with their encodings: bit by bit into `R[x]`, and no flag. The numerals
of the encodings are the spec's own (log 6). -/
def Obligations.CopyAndLogicWriteOneRegisterAndNoFlag : Prop :=
  ∀ (x y : Reg) (s : State),
    decodeWord (BitVec.ofNat 16 (0x8000 + 256 * x.val + 16 * y.val)) = some (.mov x y) ∧
    decodeWord (BitVec.ofNat 16 (0x8001 + 256 * x.val + 16 * y.val)) = some (.or x y) ∧
    decodeWord (BitVec.ofNat 16 (0x8002 + 256 * x.val + 16 * y.val)) = some (.and x y) ∧
    decodeWord (BitVec.ofNat 16 (0x8003 + 256 * x.val + 16 * y.val)) = some (.xor x y) ∧
    (∃ t, exec (.mov x y) s = .next t ∧ t.pc = s.pc + 2#16 ∧ Frame { regs := fun r => r == x } s t ∧
      t.reg x = s.reg y) ∧
    (∃ t, exec (.or x y) s = .next t ∧ t.pc = s.pc + 2#16 ∧ Frame { regs := fun r => r == x } s t ∧
      ∀ k, (t.reg x).getLsbD k = ((s.reg x).getLsbD k || (s.reg y).getLsbD k)) ∧
    (∃ t, exec (.and x y) s = .next t ∧ t.pc = s.pc + 2#16 ∧ Frame { regs := fun r => r == x } s t ∧
      ∀ k, (t.reg x).getLsbD k = ((s.reg x).getLsbD k && (s.reg y).getLsbD k)) ∧
    (∃ t, exec (.xor x y) s = .next t ∧ t.pc = s.pc + 2#16 ∧ Frame { regs := fun r => r == x } s t ∧
      ∀ k, (t.reg x).getLsbD k = ((s.reg x).getLsbD k ^^ (s.reg y).getLsbD k))

/-- R166: `ADD`, with its encoding: the sum modulo 256, and `RF` 1 if it exceeded 255, else 0. With `RF` as an operand
see `FlagOperandsLeaveUnspecifiedResults`. The numeral of the encoding is the spec's own (log 6). -/
def Obligations.AddWritesTheSumAndTheCarry : Prop :=
  ∀ (x y : Reg) (s : State),
    decodeWord (BitVec.ofNat 16 (0x8004 + 256 * x.val + 16 * y.val)) = some (.add x y) ∧
    (x ≠ 15 → y ≠ 15 → ∃ t, exec (.add x y) s = .next t ∧ t.pc = s.pc + 2#16 ∧
      Frame { regs := fun r => r == x || r == 15 } s t ∧
      (t.reg x).toNat = ((s.reg x).toNat + (s.reg y).toNat) % 256 ∧
      t.reg 15 = if (s.reg x).toNat + (s.reg y).toNat > 255 then 1 else 0)

/-- R167 and R169: `SUB` and `SUBN`, with their encodings: the difference modulo 256, and `RF` 1 if nothing was
borrowed, else 0. With `RF` as an operand see `FlagOperandsLeaveUnspecifiedResults`. The numerals of the encodings are
the spec's own (log 6). -/
def Obligations.SubtractionsWriteTheDifferenceAndNoBorrow : Prop :=
  ∀ (x y : Reg) (s : State),
    decodeWord (BitVec.ofNat 16 (0x8005 + 256 * x.val + 16 * y.val)) = some (.sub x y) ∧
    decodeWord (BitVec.ofNat 16 (0x8007 + 256 * x.val + 16 * y.val)) = some (.subn x y) ∧
    (x ≠ 15 → y ≠ 15 →
      (∃ t, exec (.sub x y) s = .next t ∧ t.pc = s.pc + 2#16 ∧
        Frame { regs := fun r => r == x || r == 15 } s t ∧
        ((t.reg x).toNat : Int) = (((s.reg x).toNat : Int) - (s.reg y).toNat) % 256 ∧
        t.reg 15 = if (s.reg x).toNat ≥ (s.reg y).toNat then 1 else 0) ∧
      (∃ t, exec (.subn x y) s = .next t ∧ t.pc = s.pc + 2#16 ∧
        Frame { regs := fun r => r == x || r == 15 } s t ∧
        ((t.reg x).toNat : Int) = (((s.reg y).toNat : Int) - (s.reg x).toNat) % 256 ∧
        t.reg 15 = if (s.reg y).toNat ≥ (s.reg x).toNat then 1 else 0))

/-- R168, R170 and, of the ignored `y` field, R111 and R173: `SHR` and `SHL`, with their encodings: `R[x]` shifted by
one in place, `RF` the bit shifted out, and the `y` field without effect. Of `RF` itself see
`FlagOperandsLeaveUnspecifiedResults`. The numerals of the encodings are the spec's own (log 6). -/
def Obligations.ShiftsWriteTheResultAndTheBitShiftedOut : Prop :=
  ∀ (x y : Reg) (s : State),
    decodeWord (BitVec.ofNat 16 (0x8006 + 256 * x.val + 16 * y.val)) = some (.shr x y) ∧
    decodeWord (BitVec.ofNat 16 (0x800E + 256 * x.val + 16 * y.val)) = some (.shl x y) ∧
    (∀ z, exec (.shr x z) s = exec (.shr x y) s ∧ exec (.shl x z) s = exec (.shl x y) s) ∧
    (x ≠ 15 →
      (∃ t, exec (.shr x y) s = .next t ∧ t.pc = s.pc + 2#16 ∧
        Frame { regs := fun r => r == x || r == 15 } s t ∧
        (t.reg x).toNat = (s.reg x).toNat / 2 ∧ (t.reg 15).toNat = (s.reg x).toNat % 2) ∧
      (∃ t, exec (.shl x y) s = .next t ∧ t.pc = s.pc + 2#16 ∧
        Frame { regs := fun r => r == x || r == 15 } s t ∧
        (t.reg x).toNat = 2 * (s.reg x).toNat % 256 ∧ (t.reg 15).toNat = (s.reg x).toNat / 128))

/-- R172, the spec's decision D16: `ADD`, `SUB`, `SUBN` with `RF` as an operand and `SHR`, `SHL` of `RF` run, advance,
and change nothing but `R[x]` and `RF`, which receive free values (log 3): two draws, one if `R[x]` is `RF`. Nothing
is said of the values drawn. -/
def Obligations.FlagOperandsLeaveUnspecifiedResults : Prop :=
  ∀ (x y : Reg) (s : State) (i : Instr),
    ((x = 15 ∨ y = 15) ∧ (i = .add x y ∨ i = .sub x y ∨ i = .subn x y)) ∨
      (x = 15 ∧ (i = .shr x y ∨ i = .shl x y)) →
    ∃ t, exec i s = .next t ∧ t.pc = s.pc + 2#16 ∧
      Frame { regs := fun r => r == x || r == 15, draws := true } s t ∧ t.rndIn = s.rndIn ∧
      (x ≠ 15 → t.reg x = Config.freeByte s.draws ∧ t.reg 15 = Config.freeByte (s.draws + 1) ∧
        t.draws = s.draws + 2) ∧
      (x = 15 → t.reg 15 = Config.freeByte s.draws ∧ t.draws = s.draws + 1)

/-! ## Index register and memory (spec file 44_index_memory.md) -/

/-- R180 and R181: `LDX` and `ADDX`, with their encodings: `I` alone, as a 16-bit value, and no flag. The numerals of
the encodings are the spec's own (log 6). -/
def Obligations.LdxAndAddxWriteTheIndexOnly : Prop :=
  ∀ (x : Reg) (nnn : Addr12) (s : State),
    decodeWord (BitVec.ofNat 16 (0xA000 + nnn.toNat)) = some (.ldx nnn) ∧
    decodeWord (BitVec.ofNat 16 (0xF01E + 256 * x.val)) = some (.addx x) ∧
    (∃ t, exec (.ldx nnn) s = .next t ∧ t.pc = s.pc + 2#16 ∧ t.idx.toNat = nnn.toNat ∧
      Frame { idx := true } s t) ∧
    (∃ t, exec (.addx x) s = .next t ∧ t.pc = s.pc + 2#16 ∧
      t.idx.toNat = (s.idx.toNat + (s.reg x).toNat) % 65536 ∧ Frame { idx := true } s t)

/-- R182, the spec's decision D24 (log 13): `FONT` multiplies the whole register value by 5 into `I`. The numeral of
the encoding is the spec's own (log 6). -/
def Obligations.FontMultipliesTheWholeRegisterByFive : Prop :=
  ∀ (x : Reg) (s : State),
    decodeWord (BitVec.ofNat 16 (0xF029 + 256 * x.val)) = some (.font x) ∧
    ∃ t, exec (.font x) s = .next t ∧ t.pc = s.pc + 2#16 ∧ t.idx.toNat = 5 * (s.reg x).toNat ∧
      Frame { idx := true } s t

/-- R183, `I` unchanged by the spec's decision D13 (log 13): the three decimal digits of `R[x]` at `(I + 0..2) mod
4096`, every other byte as before. The numeral of the encoding is the spec's own (log 6). -/
def Obligations.BcdStoresThreeDigits : Prop :=
  ∀ (x : Reg) (s : State),
    decodeWord (BitVec.ofNat 16 (0xF033 + 256 * x.val)) = some (.bcd x) ∧
    ∃ t, exec (.bcd x) s = .next t ∧ t.pc = s.pc + 2#16 ∧
      (t.mem.read (effAddr s 0)).toNat = (s.reg x).toNat / 100 ∧
      (t.mem.read (effAddr s 1)).toNat = (s.reg x).toNat / 10 % 10 ∧
      (t.mem.read (effAddr s 2)).toNat = (s.reg x).toNat % 10 ∧
      (∀ a, a ≠ effAddr s 0 → a ≠ effAddr s 1 → a ≠ effAddr s 2 → t.mem.read a = s.mem.read a) ∧
      Frame { mem := blockAddrs s 3 } s t

/-- R184, `I` unchanged by the spec's decision D13 (log 13): registers `R[0..x]` to `(I + 0..x) mod 4096`, every other
byte as before. The numeral of the encoding is the spec's own (log 6). -/
def Obligations.StmStoresTheRegistersUpToX : Prop :=
  ∀ (x : Reg) (s : State),
    decodeWord (BitVec.ofNat 16 (0xF055 + 256 * x.val)) = some (.stm x) ∧
    ∃ t, exec (.stm x) s = .next t ∧ t.pc = s.pc + 2#16 ∧
      (∀ k : Reg, k ≤ x → t.mem.read (effAddr s k.val) = s.reg k) ∧
      (∀ a, (∀ k : Reg, k ≤ x → a ≠ effAddr s k.val) → t.mem.read a = s.mem.read a) ∧
      Frame { mem := blockAddrs s (x.val + 1) } s t

/-- R185, `I` unchanged by the spec's decision D13 (log 13): registers `R[0..x]` from `(I + 0..x) mod 4096`, the
registers above `x` and all of memory as before. The numeral of the encoding is the spec's own (log 6). -/
def Obligations.LdmLoadsTheRegistersUpToX : Prop :=
  ∀ (x : Reg) (s : State),
    decodeWord (BitVec.ofNat 16 (0xF065 + 256 * x.val)) = some (.ldm x) ∧
    ∃ t, exec (.ldm x) s = .next t ∧ t.pc = s.pc + 2#16 ∧
      (∀ k : Reg, k ≤ x → t.reg k = s.mem.read (effAddr s k.val)) ∧
      Frame { regs := fun r => decide (r ≤ x) } s t

/-! ## Screen, random byte, sprites (spec file 45_display_random.md) -/

/-- R190: `CLS`, with its encoding: every pixel 0, redraw set whatever the screen held, and no register written. The
numeral of the encoding is the spec's own (log 6). -/
def Obligations.ClsClearsEveryPixel : Prop :=
  decodeWord 0x00E0 = some .cls ∧
  ∀ s : State, ∃ t, exec .cls s = .next t ∧ t.pc = s.pc + 2#16 ∧ (∀ r c, pixel t.fb r c = false) ∧
    t.out.redrawNeeded = true ∧ Frame { screen := true, redraw := true } s t

/-- R191, the spec's decision D21: `RND` writes `rnd & kk`, for every byte the host presents with the step; with none
presented the byte is a free value (log 4), of which nothing is said. The numeral of its encoding is the spec's own
(log 6), its decision D21 is log 13. -/
def Obligations.RndMasksTheRandomByte : Prop :=
  ∀ (x : Reg) (kk : Byte) (s : State),
    decodeWord (BitVec.ofNat 16 (0xC000 + 256 * x.val + kk.toNat)) = some (.rnd x kk) ∧
    (∃ t, exec (.rnd x kk) s = .next t ∧ t.pc = s.pc + 2#16 ∧
      Frame { regs := fun r => r == x, draws := true } s t ∧
      (∀ b rest, s.rndIn = b :: rest → t.reg x = b &&& kk ∧ t.rndIn = rest ∧ t.draws = s.draws) ∧
      (s.rndIn = [] → t.reg x = Config.freeByte s.draws &&& kk ∧ t.rndIn = [] ∧ t.draws = s.draws + 1)) ∧
    (∀ rnd, Runs s (.rnd x kk) → ∃ o, (hostStep rnd s).2 = .stepped o ∧ (hostStep rnd s).1.reg x = rnd &&& kk)

/-- R192 to R196, by the spec's decisions D8, D9 and D10 (log 7): `DRW` inverts exactly the pixels where the sprite
has a 1 bit, rows and columns wrapping; `RF` is 1 if one of them was set, else 0; redraw is set; the coordinates are
read before `RF` is written. The numeral of the encoding is the spec's own (log 6). -/
def Obligations.DrwInvertsThePixelsOfTheSprite : Prop :=
  ∀ (x y : Reg) (n : RowCount) (s : State),
    decodeWord (BitVec.ofNat 16 (0xD000 + 256 * x.val + 16 * y.val + n.val)) = some (.drw x y n) ∧
    ∃ t, exec (.drw x y n) s = .next t ∧ t.pc = s.pc + 2#16 ∧ t.out.redrawNeeded = true ∧
      (∀ r c, SpriteHits s (s.reg x) (s.reg y) n.val r c → pixel t.fb r c = !pixel s.fb r c) ∧
      (∀ r c, ¬ SpriteHits s (s.reg x) (s.reg y) n.val r c → pixel t.fb r c = pixel s.fb r c) ∧
      ((∃ r c, SpriteHits s (s.reg x) (s.reg y) n.val r c ∧ pixel s.fb r c = true) → t.reg 15 = 1) ∧
      ((¬ ∃ r c, SpriteHits s (s.reg x) (s.reg y) n.val r c ∧ pixel s.fb r c = true) → t.reg 15 = 0) ∧
      Frame { regs := fun r => r == 15, screen := true, redraw := true } s t

/-- R195: after `DRW`, `RF` is 1 exactly when at least one pixel was 1 before and is 0 after, and it is 0 otherwise. -/
def Obligations.CollisionMeansAPixelWasTurnedOff : Prop :=
  ∀ (x y : Reg) (n : RowCount) (s t : State), exec (.drw x y n) s = .next t →
    (t.reg 15 = 1 ↔ ∃ r c, pixel s.fb r c = true ∧ pixel t.fb r c = false) ∧
    (t.reg 15 = 0 ↔ ¬ ∃ r c, pixel s.fb r c = true ∧ pixel t.fb r c = false)

/-- R197: the same `DRW` executed again with the same coordinates restores the screen, and reports a collision exactly
when the sprite has a 1 bit whose pixel was 0 before the first. Which pixels the sprite has are the spec's decisions
D8 and D9 (log 7). -/
def Obligations.DrawingASpriteTwiceRestoresTheScreen : Prop :=
  ∀ (x y : Reg) (n : RowCount) (s t u : State),
    exec (.drw x y n) s = .next t → t.reg x = s.reg x → t.reg y = s.reg y → exec (.drw x y n) t = .next u →
    u.fb = s.fb ∧
    (t.reg 15 = 1 ↔ ∃ r c, SpriteHits s (s.reg x) (s.reg y) n.val r c ∧ pixel s.fb r c = true) ∧
    (u.reg 15 = 1 ↔ ∃ r c, SpriteHits s (s.reg x) (s.reg y) n.val r c ∧ pixel s.fb r c = false)

/-! ## Keys and timers (spec file 46_keys_timers.md) -/

/-- R202: `LDDT`, with its encoding: `R[x]` receives `DT` as it was before this step's tick, which then follows. The
numeral of the encoding is the spec's own (log 6). -/
def Obligations.LddtReadsTheDelayTimerBeforeTheTick : Prop :=
  ∀ (x : Reg) (s : State),
    decodeWord (BitVec.ofNat 16 (0xF007 + 256 * x.val)) = some (.lddt x) ∧
    (∃ t, exec (.lddt x) s = .next t ∧ t.pc = s.pc + 2#16 ∧ t.reg x = s.dt ∧
      Frame { regs := fun r => r == x } s t) ∧
    (Runs s (.lddt x) → ∃ u, step s = .next u ∧ u.reg x = s.dt ∧ u.dt.toNat = s.dt.toNat - 1)

/-- R204: `STDT`, with its encoding: `DT` receives `R[x]`, and the tick of the same step applies to the new value. The
numeral of the encoding is the spec's own (log 6). -/
def Obligations.StdtWritesTheDelayTimer : Prop :=
  ∀ (x : Reg) (s : State),
    decodeWord (BitVec.ofNat 16 (0xF015 + 256 * x.val)) = some (.stdt x) ∧
    (∃ t, exec (.stdt x) s = .next t ∧ t.pc = s.pc + 2#16 ∧ t.dt = s.reg x ∧ Frame { dt := true } s t) ∧
    (Runs s (.stdt x) → ∃ u, step s = .next u ∧ u.dt.toNat = (s.reg x).toNat - 1)

/-- R205: `STST`, with its encoding: `ST` receives `R[x]`, the tick of the same step applies, and `tone_active` is
computed from the ticked value; with `R[x] = v` it is 1 on exactly the first `v - 1` steps, this one the first, while
no step writes `ST` again. The numeral of the encoding is the spec's own (log 6). -/
def Obligations.StstWritesTheSoundTimerAndTheToneLasts : Prop :=
  ∀ (x : Reg) (s : State),
    decodeWord (BitVec.ofNat 16 (0xF018 + 256 * x.val)) = some (.stst x) ∧
    (∃ t, exec (.stst x) s = .next t ∧ t.pc = s.pc + 2#16 ∧ t.st = s.reg x ∧ Frame { st := true } s t) ∧
    (Runs s (.stst x) → ∃ u, step s = .next u ∧ u.st.toNat = (s.reg x).toNat - 1 ∧
      (u.out.toneActive = true ↔ u.st.toNat ≠ 0)) ∧
    (∀ (k : Nat) (t : State), Runs s (.stst x) → StepsTo (k + 1) s t →
      (∀ j v, 1 ≤ j → j ≤ k → StepsTo j s v → ∀ z, ¬ Runs v (.stst z)) →
      (t.out.toneActive = true ↔ k + 1 ≤ (s.reg x).toNat - 1))

/-- R203, by the spec's decision D12 (log 13): `WAITK` with no key down completes with nothing changed, `pc` included;
else the lowest-numbered key that is down goes to `R[x]` and `pc` advances by 2. The numeral of the encoding is the
spec's own (log 6). -/
def Obligations.WaitkStoresTheLowestKeyOrStays : Prop :=
  ∀ (x : Reg) (s : State),
    decodeWord (BitVec.ofNat 16 (0xF00A + 256 * x.val)) = some (.waitk x) ∧
    (s.keys = 0 → exec (.waitk x) s = .next s) ∧
    (s.keys ≠ 0 → ∃ t k, exec (.waitk x) s = .next t ∧ k < 16 ∧ s.keys.getLsbD k = true ∧
      (∀ j, j < k → s.keys.getLsbD j = false) ∧ (t.reg x).toNat = k ∧ t.pc = s.pc + 2#16 ∧
      Frame { regs := fun r => r == x } s t)
end

