-- ==== Sys2Proof/Laws/State.lean ====
section
/-! SUPPORT. One lemma per field per update of the state, so that no proof unfolds a record update. -/

namespace Sys2Proof.Machine

variable (s : State)

/-! ### memWrite -/

@[simp] theorem memWrite_regs (a : Nat) (v : Byte) : (memWrite s a v).regs = s.regs := rfl
@[simp] theorem memWrite_idx (a : Nat) (v : Byte) : (memWrite s a v).idx = s.idx := rfl
@[simp] theorem memWrite_pc (a : Nat) (v : Byte) : (memWrite s a v).pc = s.pc := rfl
@[simp] theorem memWrite_sp (a : Nat) (v : Byte) : (memWrite s a v).sp = s.sp := rfl
@[simp] theorem memWrite_stk (a : Nat) (v : Byte) : (memWrite s a v).stk = s.stk := rfl
@[simp] theorem memWrite_dt (a : Nat) (v : Byte) : (memWrite s a v).dt = s.dt := rfl
@[simp] theorem memWrite_st (a : Nat) (v : Byte) : (memWrite s a v).st = s.st := rfl
@[simp] theorem memWrite_keys (a : Nat) (v : Byte) : (memWrite s a v).keys = s.keys := rfl
@[simp] theorem memWrite_fb (a : Nat) (v : Byte) : (memWrite s a v).fb = s.fb := rfl
@[simp] theorem memWrite_mem (a : Nat) (v : Byte) : (memWrite s a v).mem = s.mem.write (a % 4096) v := rfl
@[simp] theorem memWrite_draws (a : Nat) (v : Byte) : (memWrite s a v).draws = s.draws := rfl
@[simp] theorem memWrite_rndIn (a : Nat) (v : Byte) : (memWrite s a v).rndIn = s.rndIn := rfl
@[simp] theorem memWrite_out (a : Nat) (v : Byte) : (memWrite s a v).out = s.out := rfl

@[simp] theorem memWrite_reg (a : Nat) (v : Byte) (r : Reg) : (memWrite s a v).reg r = s.reg r := rfl

/-! ### setReg -/

@[simp] theorem setReg_regs (r : Reg) (v : Byte) : (setReg s r v).regs = s.regs.set r v := rfl
@[simp] theorem setReg_idx (r : Reg) (v : Byte) : (setReg s r v).idx = s.idx := rfl
@[simp] theorem setReg_pc (r : Reg) (v : Byte) : (setReg s r v).pc = s.pc := rfl
@[simp] theorem setReg_sp (r : Reg) (v : Byte) : (setReg s r v).sp = s.sp := rfl
@[simp] theorem setReg_stk (r : Reg) (v : Byte) : (setReg s r v).stk = s.stk := rfl
@[simp] theorem setReg_dt (r : Reg) (v : Byte) : (setReg s r v).dt = s.dt := rfl
@[simp] theorem setReg_st (r : Reg) (v : Byte) : (setReg s r v).st = s.st := rfl
@[simp] theorem setReg_keys (r : Reg) (v : Byte) : (setReg s r v).keys = s.keys := rfl
@[simp] theorem setReg_fb (r : Reg) (v : Byte) : (setReg s r v).fb = s.fb := rfl
@[simp] theorem setReg_mem (r : Reg) (v : Byte) : (setReg s r v).mem = s.mem := rfl
@[simp] theorem setReg_draws (r : Reg) (v : Byte) : (setReg s r v).draws = s.draws := rfl
@[simp] theorem setReg_rndIn (r : Reg) (v : Byte) : (setReg s r v).rndIn = s.rndIn := rfl
@[simp] theorem setReg_out (r : Reg) (v : Byte) : (setReg s r v).out = s.out := rfl

/-! ### setIdx -/

@[simp] theorem setIdx_regs (v : Word) : (setIdx s v).regs = s.regs := rfl
@[simp] theorem setIdx_idx (v : Word) : (setIdx s v).idx = v := rfl
@[simp] theorem setIdx_pc (v : Word) : (setIdx s v).pc = s.pc := rfl
@[simp] theorem setIdx_sp (v : Word) : (setIdx s v).sp = s.sp := rfl
@[simp] theorem setIdx_stk (v : Word) : (setIdx s v).stk = s.stk := rfl
@[simp] theorem setIdx_dt (v : Word) : (setIdx s v).dt = s.dt := rfl
@[simp] theorem setIdx_st (v : Word) : (setIdx s v).st = s.st := rfl
@[simp] theorem setIdx_keys (v : Word) : (setIdx s v).keys = s.keys := rfl
@[simp] theorem setIdx_fb (v : Word) : (setIdx s v).fb = s.fb := rfl
@[simp] theorem setIdx_mem (v : Word) : (setIdx s v).mem = s.mem := rfl
@[simp] theorem setIdx_draws (v : Word) : (setIdx s v).draws = s.draws := rfl
@[simp] theorem setIdx_rndIn (v : Word) : (setIdx s v).rndIn = s.rndIn := rfl
@[simp] theorem setIdx_out (v : Word) : (setIdx s v).out = s.out := rfl

@[simp] theorem setIdx_reg (v : Word) (r : Reg) : (setIdx s v).reg r = s.reg r := rfl

/-! ### setDelay -/

@[simp] theorem setDelay_regs (v : Byte) : (setDelay s v).regs = s.regs := rfl
@[simp] theorem setDelay_idx (v : Byte) : (setDelay s v).idx = s.idx := rfl
@[simp] theorem setDelay_pc (v : Byte) : (setDelay s v).pc = s.pc := rfl
@[simp] theorem setDelay_sp (v : Byte) : (setDelay s v).sp = s.sp := rfl
@[simp] theorem setDelay_stk (v : Byte) : (setDelay s v).stk = s.stk := rfl
@[simp] theorem setDelay_dt (v : Byte) : (setDelay s v).dt = v := rfl
@[simp] theorem setDelay_st (v : Byte) : (setDelay s v).st = s.st := rfl
@[simp] theorem setDelay_keys (v : Byte) : (setDelay s v).keys = s.keys := rfl
@[simp] theorem setDelay_fb (v : Byte) : (setDelay s v).fb = s.fb := rfl
@[simp] theorem setDelay_mem (v : Byte) : (setDelay s v).mem = s.mem := rfl
@[simp] theorem setDelay_draws (v : Byte) : (setDelay s v).draws = s.draws := rfl
@[simp] theorem setDelay_rndIn (v : Byte) : (setDelay s v).rndIn = s.rndIn := rfl
@[simp] theorem setDelay_out (v : Byte) : (setDelay s v).out = s.out := rfl

@[simp] theorem setDelay_reg (v : Byte) (r : Reg) : (setDelay s v).reg r = s.reg r := rfl

/-! ### setSound -/

@[simp] theorem setSound_regs (v : Byte) : (setSound s v).regs = s.regs := rfl
@[simp] theorem setSound_idx (v : Byte) : (setSound s v).idx = s.idx := rfl
@[simp] theorem setSound_pc (v : Byte) : (setSound s v).pc = s.pc := rfl
@[simp] theorem setSound_sp (v : Byte) : (setSound s v).sp = s.sp := rfl
@[simp] theorem setSound_stk (v : Byte) : (setSound s v).stk = s.stk := rfl
@[simp] theorem setSound_dt (v : Byte) : (setSound s v).dt = s.dt := rfl
@[simp] theorem setSound_st (v : Byte) : (setSound s v).st = v := rfl
@[simp] theorem setSound_keys (v : Byte) : (setSound s v).keys = s.keys := rfl
@[simp] theorem setSound_fb (v : Byte) : (setSound s v).fb = s.fb := rfl
@[simp] theorem setSound_mem (v : Byte) : (setSound s v).mem = s.mem := rfl
@[simp] theorem setSound_draws (v : Byte) : (setSound s v).draws = s.draws := rfl
@[simp] theorem setSound_rndIn (v : Byte) : (setSound s v).rndIn = s.rndIn := rfl
@[simp] theorem setSound_out (v : Byte) : (setSound s v).out = s.out := rfl

@[simp] theorem setSound_reg (v : Byte) (r : Reg) : (setSound s v).reg r = s.reg r := rfl

/-! ### jumpTo -/

@[simp] theorem jumpTo_regs (v : Word) : (jumpTo s v).regs = s.regs := rfl
@[simp] theorem jumpTo_idx (v : Word) : (jumpTo s v).idx = s.idx := rfl
@[simp] theorem jumpTo_pc (v : Word) : (jumpTo s v).pc = v := rfl
@[simp] theorem jumpTo_sp (v : Word) : (jumpTo s v).sp = s.sp := rfl
@[simp] theorem jumpTo_stk (v : Word) : (jumpTo s v).stk = s.stk := rfl
@[simp] theorem jumpTo_dt (v : Word) : (jumpTo s v).dt = s.dt := rfl
@[simp] theorem jumpTo_st (v : Word) : (jumpTo s v).st = s.st := rfl
@[simp] theorem jumpTo_keys (v : Word) : (jumpTo s v).keys = s.keys := rfl
@[simp] theorem jumpTo_fb (v : Word) : (jumpTo s v).fb = s.fb := rfl
@[simp] theorem jumpTo_mem (v : Word) : (jumpTo s v).mem = s.mem := rfl
@[simp] theorem jumpTo_draws (v : Word) : (jumpTo s v).draws = s.draws := rfl
@[simp] theorem jumpTo_rndIn (v : Word) : (jumpTo s v).rndIn = s.rndIn := rfl
@[simp] theorem jumpTo_out (v : Word) : (jumpTo s v).out = s.out := rfl

@[simp] theorem jumpTo_reg (v : Word) (r : Reg) : (jumpTo s v).reg r = s.reg r := rfl

/-! ### advance -/

@[simp] theorem advance_regs : (advance s).regs = s.regs := rfl
@[simp] theorem advance_idx : (advance s).idx = s.idx := rfl
@[simp] theorem advance_pc : (advance s).pc = s.pc + 2#16 := rfl
@[simp] theorem advance_sp : (advance s).sp = s.sp := rfl
@[simp] theorem advance_stk : (advance s).stk = s.stk := rfl
@[simp] theorem advance_dt : (advance s).dt = s.dt := rfl
@[simp] theorem advance_st : (advance s).st = s.st := rfl
@[simp] theorem advance_keys : (advance s).keys = s.keys := rfl
@[simp] theorem advance_fb : (advance s).fb = s.fb := rfl
@[simp] theorem advance_mem : (advance s).mem = s.mem := rfl
@[simp] theorem advance_draws : (advance s).draws = s.draws := rfl
@[simp] theorem advance_rndIn : (advance s).rndIn = s.rndIn := rfl
@[simp] theorem advance_out : (advance s).out = s.out := rfl

@[simp] theorem advance_reg (r : Reg) : (advance s).reg r = s.reg r := rfl

/-! ### setScreen -/

@[simp] theorem setScreen_regs (fb : Framebuffer) : (setScreen s fb).regs = s.regs := rfl
@[simp] theorem setScreen_idx (fb : Framebuffer) : (setScreen s fb).idx = s.idx := rfl
@[simp] theorem setScreen_pc (fb : Framebuffer) : (setScreen s fb).pc = s.pc := rfl
@[simp] theorem setScreen_sp (fb : Framebuffer) : (setScreen s fb).sp = s.sp := rfl
@[simp] theorem setScreen_stk (fb : Framebuffer) : (setScreen s fb).stk = s.stk := rfl
@[simp] theorem setScreen_dt (fb : Framebuffer) : (setScreen s fb).dt = s.dt := rfl
@[simp] theorem setScreen_st (fb : Framebuffer) : (setScreen s fb).st = s.st := rfl
@[simp] theorem setScreen_keys (fb : Framebuffer) : (setScreen s fb).keys = s.keys := rfl
@[simp] theorem setScreen_fb (fb : Framebuffer) : (setScreen s fb).fb = fb := rfl
@[simp] theorem setScreen_mem (fb : Framebuffer) : (setScreen s fb).mem = s.mem := rfl
@[simp] theorem setScreen_draws (fb : Framebuffer) : (setScreen s fb).draws = s.draws := rfl
@[simp] theorem setScreen_rndIn (fb : Framebuffer) : (setScreen s fb).rndIn = s.rndIn := rfl
@[simp] theorem setScreen_out (fb : Framebuffer) : (setScreen s fb).out = s.out := rfl

@[simp] theorem setScreen_reg (fb : Framebuffer) (r : Reg) : (setScreen s fb).reg r = s.reg r := rfl

/-! ### requestRedraw -/

@[simp] theorem requestRedraw_regs : (requestRedraw s).regs = s.regs := rfl
@[simp] theorem requestRedraw_idx : (requestRedraw s).idx = s.idx := rfl
@[simp] theorem requestRedraw_pc : (requestRedraw s).pc = s.pc := rfl
@[simp] theorem requestRedraw_sp : (requestRedraw s).sp = s.sp := rfl
@[simp] theorem requestRedraw_stk : (requestRedraw s).stk = s.stk := rfl
@[simp] theorem requestRedraw_dt : (requestRedraw s).dt = s.dt := rfl
@[simp] theorem requestRedraw_st : (requestRedraw s).st = s.st := rfl
@[simp] theorem requestRedraw_keys : (requestRedraw s).keys = s.keys := rfl
@[simp] theorem requestRedraw_fb : (requestRedraw s).fb = s.fb := rfl
@[simp] theorem requestRedraw_mem : (requestRedraw s).mem = s.mem := rfl
@[simp] theorem requestRedraw_draws : (requestRedraw s).draws = s.draws := rfl
@[simp] theorem requestRedraw_rndIn : (requestRedraw s).rndIn = s.rndIn := rfl
@[simp] theorem requestRedraw_out : (requestRedraw s).out = { s.out with redrawNeeded := true } := rfl

@[simp] theorem requestRedraw_reg (r : Reg) : (requestRedraw s).reg r = s.reg r := rfl

/-! ### beginStep -/

@[simp] theorem beginStep_regs : (beginStep s).regs = s.regs := rfl
@[simp] theorem beginStep_idx : (beginStep s).idx = s.idx := rfl
@[simp] theorem beginStep_pc : (beginStep s).pc = s.pc := rfl
@[simp] theorem beginStep_sp : (beginStep s).sp = s.sp := rfl
@[simp] theorem beginStep_stk : (beginStep s).stk = s.stk := rfl
@[simp] theorem beginStep_dt : (beginStep s).dt = s.dt := rfl
@[simp] theorem beginStep_st : (beginStep s).st = s.st := rfl
@[simp] theorem beginStep_keys : (beginStep s).keys = s.keys := rfl
@[simp] theorem beginStep_fb : (beginStep s).fb = s.fb := rfl
@[simp] theorem beginStep_mem : (beginStep s).mem = s.mem := rfl
@[simp] theorem beginStep_draws : (beginStep s).draws = s.draws := rfl
@[simp] theorem beginStep_rndIn : (beginStep s).rndIn = s.rndIn := rfl
@[simp] theorem beginStep_out : (beginStep s).out = StepOutput.clear := rfl

@[simp] theorem beginStep_reg (r : Reg) : (beginStep s).reg r = s.reg r := rfl

/-! ### tick -/

@[simp] theorem tick_regs : (tick s).regs = s.regs := rfl
@[simp] theorem tick_idx : (tick s).idx = s.idx := rfl
@[simp] theorem tick_pc : (tick s).pc = s.pc := rfl
@[simp] theorem tick_sp : (tick s).sp = s.sp := rfl
@[simp] theorem tick_stk : (tick s).stk = s.stk := rfl
@[simp] theorem tick_dt : (tick s).dt = tickDown s.dt := rfl
@[simp] theorem tick_st : (tick s).st = tickDown s.st := rfl
@[simp] theorem tick_keys : (tick s).keys = s.keys := rfl
@[simp] theorem tick_fb : (tick s).fb = s.fb := rfl
@[simp] theorem tick_mem : (tick s).mem = s.mem := rfl
@[simp] theorem tick_draws : (tick s).draws = s.draws := rfl
@[simp] theorem tick_rndIn : (tick s).rndIn = s.rndIn := rfl
@[simp] theorem tick_out : (tick s).out = s.out := rfl

@[simp] theorem tick_reg (r : Reg) : (tick s).reg r = s.reg r := rfl

/-! ### report -/

@[simp] theorem report_regs : (report s).regs = s.regs := rfl
@[simp] theorem report_idx : (report s).idx = s.idx := rfl
@[simp] theorem report_pc : (report s).pc = s.pc := rfl
@[simp] theorem report_sp : (report s).sp = s.sp := rfl
@[simp] theorem report_stk : (report s).stk = s.stk := rfl
@[simp] theorem report_dt : (report s).dt = s.dt := rfl
@[simp] theorem report_st : (report s).st = s.st := rfl
@[simp] theorem report_keys : (report s).keys = s.keys := rfl
@[simp] theorem report_fb : (report s).fb = s.fb := rfl
@[simp] theorem report_mem : (report s).mem = s.mem := rfl
@[simp] theorem report_draws : (report s).draws = s.draws := rfl
@[simp] theorem report_rndIn : (report s).rndIn = s.rndIn := rfl
@[simp] theorem report_out : (report s).out = { s.out with toneActive := s.st != 0 } := rfl

@[simp] theorem report_reg (r : Reg) : (report s).reg r = s.reg r := rfl

/-! ### skipIf -/

@[simp] theorem skipIf_regs (b : Bool) : (skipIf s b).regs = s.regs := by
  cases b <;> rfl
@[simp] theorem skipIf_idx (b : Bool) : (skipIf s b).idx = s.idx := by
  cases b <;> rfl
@[simp] theorem skipIf_pc (b : Bool) : (skipIf s b).pc = if b then s.pc + 4#16 else s.pc + 2#16 := by
  cases b <;> rfl
@[simp] theorem skipIf_sp (b : Bool) : (skipIf s b).sp = s.sp := by
  cases b <;> rfl
@[simp] theorem skipIf_stk (b : Bool) : (skipIf s b).stk = s.stk := by
  cases b <;> rfl
@[simp] theorem skipIf_dt (b : Bool) : (skipIf s b).dt = s.dt := by
  cases b <;> rfl
@[simp] theorem skipIf_st (b : Bool) : (skipIf s b).st = s.st := by
  cases b <;> rfl
@[simp] theorem skipIf_keys (b : Bool) : (skipIf s b).keys = s.keys := by
  cases b <;> rfl
@[simp] theorem skipIf_fb (b : Bool) : (skipIf s b).fb = s.fb := by
  cases b <;> rfl
@[simp] theorem skipIf_mem (b : Bool) : (skipIf s b).mem = s.mem := by
  cases b <;> rfl
@[simp] theorem skipIf_draws (b : Bool) : (skipIf s b).draws = s.draws := by
  cases b <;> rfl
@[simp] theorem skipIf_rndIn (b : Bool) : (skipIf s b).rndIn = s.rndIn := by
  cases b <;> rfl
@[simp] theorem skipIf_out (b : Bool) : (skipIf s b).out = s.out := by
  cases b <;> rfl

@[simp] theorem skipIf_reg (b : Bool) (r : Reg) : (skipIf s b).reg r = s.reg r := by cases b <;> rfl

/-! ### Registers -/

@[simp] theorem setReg_reg_same (r : Reg) (v : Byte) : (setReg s r v).reg r = v := by
  simp [State.reg, setReg]

@[simp] theorem setReg_reg_ne {q r : Reg} (v : Byte) (h : q ≠ r) : (setReg s r v).reg q = s.reg q := by
  have : r.val ≠ q.val := fun e => h (Fin.ext e.symm)
  simp [State.reg, setReg, this]

theorem setReg_reg (q r : Reg) (v : Byte) : (setReg s r v).reg q = if q = r then v else s.reg q := by
  by_cases h : q = r
  · simp [h]
  · simp [h]

/-- Two states are equal when every field is. -/
theorem State.ext_fields {s t : State} (h1 : s.regs = t.regs) (h2 : s.idx = t.idx) (h3 : s.pc = t.pc) (h4 : s.sp = t.sp)
    (h5 : s.stk = t.stk) (h6 : s.dt = t.dt) (h7 : s.st = t.st) (h8 : s.keys = t.keys) (h9 : s.fb = t.fb)
    (h10 : s.mem = t.mem) (h11 : s.draws = t.draws) (h12 : s.rndIn = t.rndIn) (h13 : s.out = t.out) : s = t := by
  cases s; cases t; simp_all

/-- Register files are equal when every register is. -/
theorem regs_ext {s t : State} (h : ∀ r, s.reg r = t.reg r) : s.regs = t.regs := by
  apply Vector.ext
  intro k hk
  exact h ⟨k, hk⟩

/-! ### The clear output -/

@[simp] theorem clear_redraw : StepOutput.clear.redrawNeeded = false := rfl
@[simp] theorem clear_tone : StepOutput.clear.toneActive = false := rfl
@[simp] theorem clear_diag : StepOutput.clear.diag = none := rfl

/-! ### Timers -/

/-- A tick takes one off, and stops at 0 (R127). -/
@[simp] theorem tickDown_toNat (v : Byte) : (tickDown v).toNat = v.toNat - 1 := by
  unfold tickDown
  split
  · next h => simp [h]
  · next h =>
    have : v.toNat ≠ 0 := fun e => h (BitVec.eq_of_toNat_eq (by simpa using e))
    have := v.isLt
    rw [BitVec.toNat_sub]
    simp
    omega

end Sys2Proof.Machine
end

