-- ==== Sys2Proof/Laws/Memory.lean ====
section
/-! SUPPORT. What memory does: a read sees the last write to the same address and no other (spec rule R69), every
operation keeps the canonical form, and memories in canonical form that read alike are equal data. -/

namespace Sys2Proof.Machine

/-! ## Lookup in the cell list -/

theorem lookupCell_insertCell_ne {a b : Nat} (v : Byte) (h : b ≠ a) (cells : List Host.Cell) :
    lookupCell (insertCell a v cells) b = lookupCell cells b := by
  induction cells with
  | nil => simp [insertCell, lookupCell, h.symm]
  | cons c rest ih =>
    simp only [insertCell]
    split
    · simp [lookupCell, h.symm]
    · simp [lookupCell, ih]

theorem lookupCell_insertCell_same (a : Nat) (v : Byte) (cells : List Host.Cell) (h : ∀ c ∈ cells, c.1 ≠ a) :
    lookupCell (insertCell a v cells) a = some v := by
  induction cells with
  | nil => simp [insertCell, lookupCell]
  | cons c rest ih =>
    have hc : c.1 ≠ a := h c (by simp)
    simp only [insertCell]
    split
    · simp [lookupCell]
    · simpa [lookupCell, hc] using ih fun d hd => h d (by simp [hd])

theorem lookupCell_dropCell_ne {a b : Nat} (h : b ≠ a) (cells : List Host.Cell) :
    lookupCell (dropCell a cells) b = lookupCell cells b := by
  induction cells with
  | nil => rfl
  | cons c rest ih =>
    by_cases hc : c.1 = a
    · simpa [dropCell, hc, lookupCell, h.symm] using ih
    · simp only [dropCell, List.filter_cons, bne_iff_ne, ne_eq, hc, not_false_eq_true, if_true, lookupCell]
      split
      · rfl
      · exact ih

theorem lookupCell_none {a : Nat} {cells : List Host.Cell} (h : ∀ c ∈ cells, c.1 ≠ a) : lookupCell cells a = none := by
  induction cells with
  | nil => rfl
  | cons c rest ih =>
    simp [lookupCell, h c (by simp), ih fun d hd => h d (by simp [hd])]

theorem dropCell_ne {a : Nat} {cells : List Host.Cell} : ∀ c ∈ dropCell a cells, c.1 ≠ a := by
  intro c hc
  simpa using (List.mem_filter.mp hc).2

theorem mem_insertCell {a : Nat} {v : Byte} {cells : List Host.Cell} {c : Host.Cell} :
    c ∈ insertCell a v cells ↔ c = (a, v) ∨ c ∈ cells := by
  induction cells with
  | nil => simp [insertCell]
  | cons d rest ih =>
    simp only [insertCell]
    split
    · simp
    · simp only [List.mem_cons, ih]
      tauto

/-! ## Read and write -/

@[simp] theorem Memory.write_font (m : Memory) (a : Nat) (v : Byte) : (m.write a v).font = m.font := rfl

/-- A read after a write to the same address gives the value written (R69). -/
@[simp] theorem Memory.read_write_same (m : Memory) (a : Nat) (v : Byte) : (m.write a v).read a = v := by
  simp only [Memory.read, Memory.write]
  split
  · next h => simp [lookupCell_none dropCell_ne, h]
  · simp [lookupCell_insertCell_same a v _ dropCell_ne]

/-- A write affects one byte only (R69). -/
@[simp] theorem Memory.read_write_ne (m : Memory) {a b : Nat} (v : Byte) (h : b ≠ a) :
    (m.write a v).read b = m.read b := by
  simp only [Memory.read, Memory.write]
  split
  · rw [lookupCell_dropCell_ne h]
  · rw [lookupCell_insertCell_ne v h, lookupCell_dropCell_ne h]

theorem Memory.read_write (m : Memory) (a b : Nat) (v : Byte) :
    (m.write a v).read b = if b = a then v else m.read b := by
  by_cases h : b = a
  · simp [h]
  · simp [h]

/-- A read with nothing listed gives the reset contents. -/
@[simp] theorem Memory.read_empty (font : Font) (a : Nat) :
    Memory.read { font := font, cells := [] } a = baseByte font a := rfl

/-! ## The canonical form -/

theorem pairwise_insertCell (a : Nat) (v : Byte) (cells : List Host.Cell)
    (hs : cells.Pairwise (fun p q => p.1 < q.1)) (h : ∀ c ∈ cells, c.1 ≠ a) :
    (insertCell a v cells).Pairwise (fun p q => p.1 < q.1) := by
  induction cells with
  | nil => simp [insertCell]
  | cons c rest ih =>
    have hc : c.1 ≠ a := h c (by simp)
    rw [List.pairwise_cons] at hs
    simp only [insertCell]
    split
    · next hlt =>
      refine List.pairwise_cons.mpr ⟨?_, List.pairwise_cons.mpr hs⟩
      intro d hd
      rcases List.mem_cons.mp hd with rfl | hd
      · exact hlt
      · exact Nat.lt_trans hlt (hs.1 d hd)
    · next hge =>
      refine List.pairwise_cons.mpr ⟨?_, ih hs.2 fun d hd => h d (by simp [hd])⟩
      intro d hd
      rcases mem_insertCell.mp hd with rfl | hd
      · show c.1 < a
        omega
      · exact hs.1 d hd

/-- Every write inside the 4096 bytes keeps the canonical form. -/
theorem Memory.wf_write {m : Memory} (h : m.wf) {a : Nat} (ha : a < 4096) (v : Byte) : (m.write a v).wf := by
  have hd : (dropCell a m.cells).Pairwise (fun p q => p.1 < q.1) := List.Pairwise.filter _ h.1
  have hm : ∀ c ∈ dropCell a m.cells, c.1 < 4096 ∧ c.2 ≠ baseByte m.font c.1 :=
    fun c hc => h.2 c (List.mem_filter.mp hc).1
  by_cases hv : v = baseByte m.font a
  · rw [show m.write a v = { m with cells := dropCell a m.cells } by simp [Memory.write, hv]]
    exact ⟨hd, hm⟩
  · rw [show m.write a v = { m with cells := insertCell a v (dropCell a m.cells) } by simp [Memory.write, hv]]
    refine ⟨pairwise_insertCell a v _ hd dropCell_ne, ?_⟩
    intro c hc
    rcases mem_insertCell.mp hc with rfl | hc
    · exact ⟨ha, hv⟩
    · exact hm c hc

theorem Memory.wf_empty (font : Font) : Memory.wf { font := font, cells := [] } := by simp [Memory.wf]

theorem Memory.wf_writeWord {m : Memory} (h : m.wf) {a : Nat} (ha : a + 1 < 4096) (w : Word) : (m.writeWord a w).wf :=
  Memory.wf_write (Memory.wf_write h (by omega) _) ha _

theorem Memory.wf_writeBytes (image : List Byte) :
    ∀ {m : Memory} {a : Nat}, m.wf → a + image.length ≤ 4096 → (m.writeBytes a image).wf := by
  induction image with
  | nil => intro m a h _; exact h
  | cons b rest ih =>
    intro m a h hl
    simp only [List.length_cons] at hl
    exact ih (Memory.wf_write h (by omega) b) (by omega)

/-- `MemWrite` keeps the canonical form. -/
theorem memWrite_wf {s : State} (h : s.mem.wf) (a : Nat) (v : Byte) : (memWrite s a v).mem.wf :=
  Memory.wf_write h (Nat.mod_lt _ (by decide)) v

/-- `LOAD` writes the image byte by byte from its base, and nothing else (R76). -/
theorem Memory.read_writeBytes (image : List Byte) :
    ∀ (m : Memory) (a b : Nat),
      (m.writeBytes a image).read b = if h : a ≤ b ∧ b - a < image.length then image[b - a] else m.read b := by
  induction image with
  | nil => intro m a b; simp [Memory.writeBytes]
  | cons v rest ih =>
    intro m a b
    rw [Memory.writeBytes, ih]
    by_cases h1 : a + 1 ≤ b ∧ b - (a + 1) < rest.length
    · have h2 : a ≤ b ∧ b - a < (v :: rest).length := by simp only [List.length_cons]; omega
      have h3 : b - a = b - (a + 1) + 1 := by omega
      rw [dif_pos h1, dif_pos h2]
      simp only [h3, List.getElem_cons_succ]
    · rw [dif_neg h1]
      by_cases h2 : b = a
      · subst h2; simp
      · rw [Memory.read_write_ne _ _ h2, dif_neg]
        simp only [List.length_cons]
        omega

@[simp] theorem Memory.writeBytes_font (image : List Byte) :
    ∀ (m : Memory) (a : Nat), (m.writeBytes a image).font = m.font := by
  induction image with
  | nil => intro m a; rfl
  | cons b rest ih => intro m a; rw [Memory.writeBytes, ih]; rfl

/-! ## Words -/

@[simp] theorem Memory.writeWord_font (m : Memory) (a : Nat) (w : Word) : (m.writeWord a w).font = m.font := rfl

theorem wordOfBytes_high_low (w : Word) : wordOfBytes (highByte w) (lowByte w) = w := by
  apply BitVec.eq_of_getLsbD_eq
  intro k hk
  simp only [wordOfBytes, highByte, lowByte, BitVec.getLsbD_append, BitVec.getLsbD_extractLsb']
  by_cases h : k < 8
  · simp [h]
  · have : 8 + (k - 8) = k := by omega
    have h2 : k - 8 < 8 := by omega
    simp [h, this, h2]

/-- The word formed from two bytes has the first as its high byte (R64). -/
theorem wordOfBytes_toNat (hi lo : Byte) : (wordOfBytes hi lo).toNat = 256 * hi.toNat + lo.toNat := by
  have h1 := lo.isLt
  simp only [wordOfBytes, BitVec.toNat_append]
  rw [Nat.shiftLeft_eq, ← Nat.shiftLeft_eq, ← Nat.shiftLeft_add_eq_or_of_lt h1]
  rw [Nat.shiftLeft_eq]
  omega

/-- A word placed at an address is the word fetched from there (R64, R69). -/
theorem wordAt_writeWord (m : Memory) (pc w : Word) : wordAt (m.writeWord pc.toNat w) pc = w := by
  rw [wordAt, Memory.writeWord, Memory.read_write_ne _ _ (by omega : pc.toNat ≠ pc.toNat + 1),
    Memory.read_write_same, Memory.read_write_same, wordOfBytes_high_low]

/-- Placing a word leaves every other byte alone. -/
theorem read_writeWord_ne (m : Memory) {a b : Nat} (w : Word) (h1 : b ≠ a) (h2 : b ≠ a + 1) :
    (m.writeWord a w).read b = m.read b := by
  rw [Memory.writeWord, Memory.read_write_ne _ _ h2, Memory.read_write_ne _ _ h1]

/-! ## MemRead and MemWrite -/

@[simp] theorem memWrite_font (s : State) (a : Nat) (v : Byte) : (memWrite s a v).mem.font = s.mem.font := rfl

theorem memWrite_read (s : State) (a b : Nat) (v : Byte) :
    (memWrite s a v).mem.read b = if b = a % 4096 then v else s.mem.read b := by
  rw [memWrite_mem, Memory.read_write]

end Sys2Proof.Machine
end

