-- ==== Sys2Proof/Laws/Blocks.lean ====
section
/-! SUPPORT. The register blocks of `STM` and `LDM`, and the addresses they reach (spec rules R68, R71, R184, R185). -/

namespace Sys2Proof.Machine

/-! ## Addresses -/

theorem effAddr_lt (s : State) (k : Nat) : effAddr s k < 4096 := Nat.mod_lt _ (by decide)

/-- At most 4096 consecutive addresses modulo 4096 are distinct (R71). -/
theorem effAddr_inj (s : State) {j k : Nat} (hj : j < 4096) (hk : k < 4096) (h : effAddr s j = effAddr s k) : j = k := by
  simp only [effAddr, indexAddr] at h
  omega

theorem blockAddrs_iff (s : State) (n a : Nat) : blockAddrs s n a = true ↔ ∃ k, k < n ∧ a = effAddr s k := by
  simp [blockAddrs]

theorem blockAddrs_eq_false {s : State} {n a : Nat} (h : blockAddrs s n a = false) {k : Nat} (hk : k < n) :
    a ≠ effAddr s k := by
  intro e
  have := (blockAddrs_iff s n a).mpr ⟨k, hk, e⟩
  simp [h] at this

@[simp] theorem regNo_val (r : Reg) : regNo r.val = r := by
  apply Fin.ext
  simp [regNo]

theorem regNo_of_lt {k : Nat} (h : k < 16) : (regNo k).val = k := by
  simp only [regNo, Fin.ofNat]
  omega

/-! ## Storing a block -/

/-- Storing a block changes memory only. -/
theorem storeBlock_eq (s : State) (n : Nat) : storeBlock s n = { s with mem := (storeBlock s n).mem } := by
  induction n with
  | zero => rfl
  | succ k ih =>
    rw [storeBlock, ih]
    rfl

theorem storeBlock_font (s : State) (n : Nat) : (storeBlock s n).mem.font = s.mem.font := by
  induction n with
  | zero => rfl
  | succ k ih => rw [storeBlock, memWrite_font, ih]

/-- A stored block leaves every other byte alone (R184). -/
theorem storeBlock_read_other (s : State) {a : Nat} :
    ∀ {n : Nat}, (∀ k, k < n → a ≠ effAddr s k) → (storeBlock s n).mem.read a = s.mem.read a := by
  intro n
  induction n with
  | zero => intro _; rfl
  | succ k ih =>
    intro h
    rw [storeBlock, memWrite_read, if_neg (show ¬ a = indexAddr s k % 4096 from h k (by omega)),
      ih fun j hj => h j (by omega)]

/-- A stored block holds register `k` at `(I + k) mod 4096` (R184). -/
theorem storeBlock_read (s : State) :
    ∀ {n : Nat}, n ≤ 16 → ∀ k, k < n → (storeBlock s n).mem.read (effAddr s k) = s.reg (regNo k) := by
  intro n
  induction n with
  | zero => intro _ k hk; omega
  | succ m ih =>
    intro hn k hk
    rw [storeBlock, memWrite_read]
    by_cases e : k = m
    · subst e
      exact if_pos rfl
    · have hne : ¬ effAddr s k = indexAddr s m % 4096 := fun h => e (effAddr_inj s (by omega) (by omega) h)
      rw [if_neg hne]
      exact ih (by omega) k (by omega)

/-- A block stored over two memories: each byte is the same in both, or is in both what it was. -/
theorem storeBlock_read_agree (s : State) (m : Memory) {n : Nat} (hn : n ≤ 16) (a : Nat) :
    (storeBlock { s with mem := m } n).mem.read a = (storeBlock s n).mem.read a ∨
    ((storeBlock { s with mem := m } n).mem.read a = m.read a ∧ (storeBlock s n).mem.read a = s.mem.read a) := by
  by_cases h : ∃ k, k < n ∧ a = effAddr s k
  · obtain ⟨k, hk, rfl⟩ := h
    left
    rw [storeBlock_read s hn k hk]
    exact storeBlock_read { s with mem := m } hn k hk
  · right
    push Not at h
    exact ⟨storeBlock_read_other { s with mem := m } h, storeBlock_read_other s h⟩

theorem storeBlock_wf {s : State} (h : s.mem.wf) (n : Nat) : (storeBlock s n).mem.wf := by
  induction n with
  | zero => exact h
  | succ k ih => exact memWrite_wf ih _ _

/-! ## Loading a block -/

/-- Loading a block changes registers only. -/
theorem loadBlock_eq (s : State) (n : Nat) : loadBlock s n = { s with regs := (loadBlock s n).regs } := by
  induction n with
  | zero => rfl
  | succ k ih =>
    rw [loadBlock, ih]
    rfl

/-- A loaded block holds the byte at `(I + r) mod 4096` in register `r`, and leaves the registers above it alone
(R185). -/
theorem loadBlock_reg (s : State) (r : Reg) :
    ∀ {n : Nat}, n ≤ 16 → (loadBlock s n).reg r = if r.val < n then memRead s (indexAddr s r.val) else s.reg r := by
  intro n
  induction n with
  | zero => intro _; rfl
  | succ m ih =>
    intro hn
    rw [loadBlock, setReg_reg, ih (by omega)]
    have hm : (regNo m).val = m := regNo_of_lt (by omega)
    by_cases e : r = regNo m
    · have : r.val = m := by rw [e, hm]
      rw [if_pos e, if_pos (by omega), this]
    · have : r.val ≠ m := fun h => e (Fin.ext (by rw [h, hm]))
      rw [if_neg e]
      by_cases h : r.val < m
      · rw [if_pos h, if_pos (by omega)]
      · rw [if_neg h, if_neg (by omega)]

end Sys2Proof.Machine
end

