-- ==== Sys2Proof/Laws/Encoding.lean ====
section
/-! SUPPORT. The fields of a packed word are the values packed (spec rules R91, R92), and a word is what its fields
pack to. -/

namespace Sys2Proof

/-! ## Registers and nibbles -/

@[simp] theorem regOfNibble_nibbleOfReg (r : Reg) : regOfNibble (nibbleOfReg r) = r := by
  apply Fin.ext
  simp only [regOfNibble, nibbleOfReg, BitVec.toNat_ofNat]
  exact Nat.mod_eq_of_lt r.isLt

@[simp] theorem nibbleOfReg_regOfNibble (b : Nibble) : nibbleOfReg (regOfNibble b) = b := by
  apply BitVec.eq_of_toNat_eq
  simp only [regOfNibble, nibbleOfReg, BitVec.toNat_ofNat]
  exact Nat.mod_eq_of_lt b.isLt

/-! ## Fields of a packed word -/

@[simp] theorem famOf_packA (f : Nibble) (a : Addr12) : famOf (packA f a) = f := by
  apply BitVec.eq_of_getLsbD_eq; intro k hk
  simp only [famOf, packA, BitVec.getLsbD_extractLsb', BitVec.getLsbD_append]
  simp [hk, show ¬ (12 + k < 12) by omega, show 12 + k - 12 = k by omega]

@[simp] theorem nnnOf_packA (f : Nibble) (a : Addr12) : nnnOf (packA f a) = a := by
  apply BitVec.eq_of_getLsbD_eq; intro k hk
  simp only [nnnOf, packA, BitVec.getLsbD_extractLsb', BitVec.getLsbD_append]
  simp [hk]

@[simp] theorem famOf_packXK (f : Nibble) (x : Reg) (kk : Byte) : famOf (packXK f x kk) = f := by
  apply BitVec.eq_of_getLsbD_eq; intro k hk
  simp only [famOf, packXK, BitVec.getLsbD_extractLsb', BitVec.getLsbD_append]
  simp [hk, show ¬ (12 + k < 8) by omega, show ¬ (12 + k - 8 < 4) by omega, show 12 + k - 8 - 4 = k by omega]

@[simp] theorem xBits_packXK (f : Nibble) (x : Reg) (kk : Byte) : xBits (packXK f x kk) = nibbleOfReg x := by
  apply BitVec.eq_of_getLsbD_eq; intro k hk
  simp only [xBits, packXK, BitVec.getLsbD_extractLsb', BitVec.getLsbD_append]
  simp [hk, show ¬ (8 + k < 8) by omega, show 8 + k - 8 = k by omega]

@[simp] theorem kkOf_packXK (f : Nibble) (x : Reg) (kk : Byte) : kkOf (packXK f x kk) = kk := by
  apply BitVec.eq_of_getLsbD_eq; intro k hk
  simp only [kkOf, packXK, BitVec.getLsbD_extractLsb', BitVec.getLsbD_append]
  simp [hk]

@[simp] theorem famOf_packXYN (f : Nibble) (x y : Reg) (n : Nibble) : famOf (packXYN f x y n) = f := by
  apply BitVec.eq_of_getLsbD_eq; intro k hk
  simp only [famOf, packXYN, BitVec.getLsbD_extractLsb', BitVec.getLsbD_append]
  simp [hk, show ¬ (12 + k < 4) by omega, show ¬ (12 + k - 4 < 4) by omega, show ¬ (12 + k - 4 - 4 < 4) by omega,
    show 12 + k - 4 - 4 - 4 = k by omega]

@[simp] theorem xBits_packXYN (f : Nibble) (x y : Reg) (n : Nibble) : xBits (packXYN f x y n) = nibbleOfReg x := by
  apply BitVec.eq_of_getLsbD_eq; intro k hk
  simp only [xBits, packXYN, BitVec.getLsbD_extractLsb', BitVec.getLsbD_append]
  simp [hk, show ¬ (8 + k < 4) by omega, show ¬ (8 + k - 4 < 4) by omega, show 8 + k - 4 - 4 = k by omega]

@[simp] theorem yBits_packXYN (f : Nibble) (x y : Reg) (n : Nibble) : yBits (packXYN f x y n) = nibbleOfReg y := by
  apply BitVec.eq_of_getLsbD_eq; intro k hk
  simp only [yBits, packXYN, BitVec.getLsbD_extractLsb', BitVec.getLsbD_append]
  simp [hk, show ¬ (4 + k < 4) by omega, show 4 + k - 4 = k by omega]

@[simp] theorem nBits_packXYN (f : Nibble) (x y : Reg) (n : Nibble) : nBits (packXYN f x y n) = n := by
  apply BitVec.eq_of_getLsbD_eq; intro k hk
  simp only [nBits, packXYN, BitVec.getLsbD_extractLsb', BitVec.getLsbD_append]
  simp [hk]

@[simp] theorem xOf_packXK (f : Nibble) (x : Reg) (kk : Byte) : xOf (packXK f x kk) = x := by simp [xOf]
@[simp] theorem xOf_packXYN (f : Nibble) (x y : Reg) (n : Nibble) : xOf (packXYN f x y n) = x := by simp [xOf]
@[simp] theorem yOf_packXYN (f : Nibble) (x y : Reg) (n : Nibble) : yOf (packXYN f x y n) = y := by simp [yOf]

@[simp] theorem nOf_packXYN (f : Nibble) (x y : Reg) (n : RowCount) :
    nOf (packXYN f x y (BitVec.ofNat 4 n.val)) = n := by
  apply Fin.ext
  simp only [nOf, nBits_packXYN, BitVec.toNat_ofNat]
  exact Nat.mod_eq_of_lt n.isLt

/-! ## A word is what its fields pack to -/

theorem packA_fields (w : Word) : packA (famOf w) (nnnOf w) = w := by
  apply BitVec.eq_of_getLsbD_eq; intro k hk
  simp only [famOf, nnnOf, packA, BitVec.getLsbD_extractLsb', BitVec.getLsbD_append]
  by_cases h : k < 12
  · simp [h]
  · simp [h, show k - 12 < 4 by omega, show 12 + (k - 12) = k by omega]

theorem packXK_fields (w : Word) : packXK (famOf w) (xOf w) (kkOf w) = w := by
  apply BitVec.eq_of_getLsbD_eq; intro k hk
  simp only [packXK, xOf, nibbleOfReg_regOfNibble, famOf, xBits, kkOf, BitVec.getLsbD_extractLsb',
    BitVec.getLsbD_append]
  by_cases h : k < 8
  · simp [h]
  · by_cases h2 : k - 8 < 4
    · simp [h, h2, show 8 + (k - 8) = k by omega]
    · simp [h, h2, show k - 8 - 4 < 4 by omega, show 12 + (k - 8 - 4) = k by omega]

theorem packXYN_fields (w : Word) : packXYN (famOf w) (xOf w) (yOf w) (nBits w) = w := by
  apply BitVec.eq_of_getLsbD_eq; intro k hk
  simp only [packXYN, xOf, yOf, nibbleOfReg_regOfNibble, famOf, xBits, yBits, nBits, BitVec.getLsbD_extractLsb',
    BitVec.getLsbD_append]
  by_cases h : k < 4
  · simp [h]
  · by_cases h2 : k - 4 < 4
    · simp [h, h2, show 4 + (k - 4) = k by omega]
    · by_cases h3 : k - 4 - 4 < 4
      · simp [h, h2, h3, show 8 + (k - 4 - 4) = k by omega]
      · simp [h, h2, h3, show k - 4 - 4 - 4 < 4 by omega, show 12 + (k - 4 - 4 - 4) = k by omega]

/-! ## Fields as numbers -/

theorem famOf_toNat (w : Word) : (famOf w).toNat = w.toNat / 4096 := by
  have := w.isLt
  simp only [famOf, BitVec.extractLsb'_toNat, Nat.shiftRight_eq_div_pow]
  omega

theorem xOf_val (w : Word) : (xOf w).val = w.toNat / 256 % 16 := by
  simp only [xOf, regOfNibble, xBits, BitVec.extractLsb'_toNat, Nat.shiftRight_eq_div_pow]

theorem yOf_val (w : Word) : (yOf w).val = w.toNat / 16 % 16 := by
  simp only [yOf, regOfNibble, yBits, BitVec.extractLsb'_toNat, Nat.shiftRight_eq_div_pow]

theorem nBits_toNat (w : Word) : (nBits w).toNat = w.toNat % 16 := by
  simp [nBits, BitVec.extractLsb'_toNat]

theorem kkOf_toNat (w : Word) : (kkOf w).toNat = w.toNat % 256 := by
  simp [kkOf, BitVec.extractLsb'_toNat]

theorem nnnOf_toNat (w : Word) : (nnnOf w).toNat = w.toNat % 4096 := by
  simp [nnnOf, BitVec.extractLsb'_toNat]

/-! ## The three masks of the opcode map, besides the full one -/

theorem and_maskFam (w : Word) : w &&& 0xF000 = packA (famOf w) 0 := by
  apply BitVec.eq_of_getLsbD_eq; intro k hk
  simp only [packA, famOf, BitVec.getLsbD_and, BitVec.getLsbD_append, BitVec.getLsbD_extractLsb']
  interval_cases k <;> simp

theorem and_maskFamN (w : Word) : w &&& 0xF00F = packXYN (famOf w) 0 0 (nBits w) := by
  apply BitVec.eq_of_getLsbD_eq; intro k hk
  simp only [packXYN, famOf, nBits, BitVec.getLsbD_and, BitVec.getLsbD_append, BitVec.getLsbD_extractLsb']
  interval_cases k <;> simp [nibbleOfReg]

theorem and_maskFamKK (w : Word) : w &&& 0xF0FF = packXK (famOf w) 0 (kkOf w) := by
  apply BitVec.eq_of_getLsbD_eq; intro k hk
  simp only [packXK, famOf, kkOf, BitVec.getLsbD_and, BitVec.getLsbD_append, BitVec.getLsbD_extractLsb']
  interval_cases k <;> simp [nibbleOfReg]

/-- The low byte of a word of format XYN is its two low nibbles. -/
theorem kkOf_packXYN (f : Nibble) (x y : Reg) (n : Nibble) : kkOf (packXYN f x y n) = nibbleOfReg y ++ n := by
  apply BitVec.eq_of_getLsbD_eq; intro k hk
  simp only [kkOf, packXYN, BitVec.getLsbD_extractLsb', BitVec.getLsbD_append]
  by_cases h : k < 4
  · simp [hk, h]
  · simp [hk, h, show k - 4 < 4 by omega]

/-! ## A packed word as a number (R91) -/

theorem append_toNat {m n : Nat} (a : BitVec m) (b : BitVec n) : (a ++ b).toNat = a.toNat * 2 ^ n + b.toNat := by
  rw [BitVec.toNat_append, Nat.shiftLeft_eq, Nat.mul_comm, ← Nat.two_pow_add_eq_or_of_lt b.isLt]

theorem nibbleOfReg_toNat (r : Reg) : (nibbleOfReg r).toNat = r.val := by
  simp only [nibbleOfReg, BitVec.toNat_ofNat]
  exact Nat.mod_eq_of_lt r.isLt

theorem packA_number (f : Nibble) (a : Addr12) : packA f a = BitVec.ofNat 16 (4096 * f.toNat + a.toNat) := by
  apply BitVec.eq_of_toNat_eq
  have := f.isLt
  have := a.isLt
  simp only [packA, append_toNat, BitVec.toNat_ofNat]
  omega

theorem packXK_number (f : Nibble) (x : Reg) (kk : Byte) :
    packXK f x kk = BitVec.ofNat 16 (4096 * f.toNat + 256 * x.val + kk.toNat) := by
  apply BitVec.eq_of_toNat_eq
  have := f.isLt
  have := x.isLt
  have := kk.isLt
  simp only [packXK, append_toNat, nibbleOfReg_toNat, BitVec.toNat_ofNat]
  omega

theorem packXYN_number (f : Nibble) (x y : Reg) (n : Nibble) :
    packXYN f x y n = BitVec.ofNat 16 (4096 * f.toNat + 256 * x.val + 16 * y.val + n.toNat) := by
  apply BitVec.eq_of_toNat_eq
  have := f.isLt
  have := x.isLt
  have := y.isLt
  have := n.isLt
  simp only [packXYN, append_toNat, nibbleOfReg_toNat, BitVec.toNat_ofNat]
  omega

end Sys2Proof
end

