-- ==== Sys2Proof/Laws/Flags.lean ====
section
/-! SUPPORT. The flag register: what a flag byte is, what an operation with a flag writes, and what it writes when `RF`
is one of its operands (spec rules R26, R166 to R170, R172). -/

namespace Sys2Proof.Machine

@[simp] theorem flagByte_true : flagByte true = 1 := rfl
@[simp] theorem flagByte_false : flagByte false = 0 := rfl

theorem flagByte_eq_one (b : Bool) : flagByte b = 1 ↔ b = true := by cases b <;> decide
theorem flagByte_eq_zero (b : Bool) : flagByte b = 0 ↔ b = false := by cases b <;> decide

@[simp] theorem carryOut_iff (a b : Byte) : carryOut a b = true ↔ 255 < a.toNat + b.toNat := by simp [carryOut]
@[simp] theorem noBorrow_iff (a b : Byte) : noBorrow a b = true ↔ b.toNat ≤ a.toNat := by simp [noBorrow]

theorem shiftedOutRight_iff (a : Byte) : shiftedOutRight a = true ↔ a.toNat % 2 = 1 := by
  simp [shiftedOutRight, BitVec.getLsbD, Nat.testBit_zero]

theorem shiftedOutLeft_iff (a : Byte) : shiftedOutLeft a = true ↔ 128 ≤ a.toNat := by
  have := a.isLt
  simp [shiftedOutLeft, BitVec.getLsbD, Nat.testBit, Nat.shiftRight_eq_div_pow]
  omega

/-- The result is written to its register when that is not `RF`. -/
@[simp] theorem writeWithFlag_result (s : State) {x : Reg} (v : Byte) (f : Bool) (h : x ≠ rf) :
    (writeWithFlag s x v f).reg x = v := by
  rw [writeWithFlag, setReg_reg_ne _ _ h, setReg_reg_same]

/-- `RF` receives the flag. -/
@[simp] theorem writeWithFlag_flag (s : State) (x : Reg) (v : Byte) (f : Bool) :
    (writeWithFlag s x v f).reg rf = flagByte f := by rw [writeWithFlag, setReg_reg_same]

/-- Every other register is left alone. -/
@[simp] theorem writeWithFlag_other (s : State) {x r : Reg} (v : Byte) (f : Bool) (h1 : r ≠ x) (h2 : r ≠ rf) :
    (writeWithFlag s x v f).reg r = s.reg r := by
  rw [writeWithFlag, setReg_reg_ne _ _ h2, setReg_reg_ne _ _ h1]

/-- An operation with a flag changes registers only. -/
theorem writeWithFlag_eq (s : State) (x : Reg) (v : Byte) (f : Bool) :
    writeWithFlag s x v f = { s with regs := (writeWithFlag s x v f).regs } := rfl

/-- Unspecified results in `RF` alone take one draw (R172). -/
theorem writeUnspecified_rf (s : State) :
    writeUnspecified s rf = { setReg s rf (Config.freeByte s.draws) with draws := s.draws + 1 } := rfl

/-- Unspecified results in another register and `RF` take two draws (R172). -/
theorem writeUnspecified_ne (s : State) {x : Reg} (h : x ≠ rf) :
    writeUnspecified s x =
      { setReg (setReg s x (Config.freeByte s.draws)) rf (Config.freeByte (s.draws + 1)) with draws := s.draws + 2 } := by
  rw [writeUnspecified, if_neg h]
  rfl

/-- Unspecified results change registers and the count of draws only. -/
theorem writeUnspecified_eq (s : State) (x : Reg) :
    writeUnspecified s x = { s with regs := (writeUnspecified s x).regs, draws := (writeUnspecified s x).draws } := by
  by_cases h : x = rf
  · subst h; rfl
  · rw [writeUnspecified_ne s h]; rfl

/-- Unspecified results touch no register but `R[x]` and `RF`. -/
theorem writeUnspecified_other (s : State) {x r : Reg} (h1 : r ≠ x) (h2 : r ≠ rf) :
    (writeUnspecified s x).reg r = s.reg r := by
  by_cases h : x = rf
  · subst h
    exact setReg_reg_ne s _ h2
  · rw [writeUnspecified_ne s h]
    show (setReg (setReg s x _) rf _).reg r = _
    rw [setReg_reg_ne _ _ h2, setReg_reg_ne _ _ h1]

/-- All an operation with a flag can do: it always answers a next state. -/
theorem flaggedOp_eq (s : State) (x : Reg) (b : Bool) (v : Byte) (f : Bool) :
    flaggedOp s x b v f = .next (advance (if b then writeUnspecified s x else writeWithFlag s x v f)) := rfl

end Sys2Proof.Machine
end

