-- ==== Sys2Proof/Laws/Stack.lean ====
section
/-! SUPPORT. All that a push and a pop can do (spec rules R28, R140, R142). -/

namespace Sys2Proof.Machine

/-- A push on a stack that is not full. -/
theorem pushReturn_of_lt {s : State} (v : Word) (h : s.sp.val < 16) :
    pushReturn s v = some { s with stk := s.stk.set s.sp.val v, sp := ⟨s.sp.val + 1, by omega⟩ } := dif_pos h

/-- A push on a full stack. -/
theorem pushReturn_full {s : State} (v : Word) (h : s.sp = 16) : pushReturn s v = none := by
  have : ¬ s.sp.val < 16 := by rw [h]; decide
  exact dif_neg this

/-- A pop of a stack that is not empty. -/
theorem popReturn_of_pos {s : State} (h : 0 < s.sp.val) :
    popReturn s = some (s.stk[s.sp.val - 1], { s with sp := ⟨s.sp.val - 1, by omega⟩ }) := dif_pos h

/-- A pop of an empty stack. -/
theorem popReturn_empty {s : State} (h : s.sp = 0) : popReturn s = none := by
  have : ¬ 0 < s.sp.val := by rw [h]; decide
  exact dif_neg this

/-- All a push can do. -/
theorem pushReturn_cases {s : State} {v : Word} :
    (s.sp = 16 ∧ pushReturn s v = none) ∨
    (∃ h : s.sp.val < 16, pushReturn s v =
      some { s with stk := s.stk.set s.sp.val v, sp := ⟨s.sp.val + 1, by omega⟩ }) := by
  by_cases h : s.sp.val < 16
  · exact .inr ⟨h, pushReturn_of_lt v h⟩
  · have : s.sp = 16 := by
      apply Fin.ext
      have := s.sp.isLt
      show s.sp.val = 16
      omega
    exact .inl ⟨this, pushReturn_full v this⟩

/-- All a pop can do. -/
theorem popReturn_cases {s : State} :
    (s.sp = 0 ∧ popReturn s = none) ∨
    (∃ h : 0 < s.sp.val, popReturn s = some (s.stk[s.sp.val - 1], { s with sp := ⟨s.sp.val - 1, by omega⟩ })) := by
  by_cases h : 0 < s.sp.val
  · exact .inr ⟨h, popReturn_of_pos h⟩
  · have : s.sp = 0 := Fin.ext (by show s.sp.val = 0; omega)
    exact .inl ⟨this, popReturn_empty this⟩

end Sys2Proof.Machine
end

