-- ==== Sys2Proof/Laws/Frames.lean ====
section
/-! SUPPORT. What each shared operation may change, as a frame (Safety.lean), so that the frame of an instruction is put
together without unfolding a meaning. -/

namespace Sys2Proof.Machine

/-- A frame that lets more change holds wherever a narrower one does. -/
theorem Frame.mono {w w' : Writes} {s t : State} (h : Frame w s t)
    (regs : ∀ r, w'.regs r = false → w.regs r = false) (idx : w'.idx = false → w.idx = false)
    (stack : w'.stack = false → w.stack = false) (dt : w'.dt = false → w.dt = false)
    (st : w'.st = false → w.st = false) (screen : w'.screen = false → w.screen = false)
    (mem : ∀ a, w'.mem a = false → w.mem a = false) (draws : w'.draws = false → w.draws = false)
    (redraw : w'.redraw = false → w.redraw = false) : Frame w' s t where
  regs r hr := h.regs r (regs r hr)
  idx hi := h.idx (idx hi)
  stack hs := h.stack (stack hs)
  dt hd := h.dt (dt hd)
  st hs := h.st (st hs)
  keys := h.keys
  screen hs := h.screen (screen hs)
  font := h.font
  mem a ha := h.mem a (mem a ha)
  draws hd := h.draws (draws hd)
  redraw hr := h.redraw (redraw hr)
  output := h.output

theorem frame_refl (w : Writes) (s : State) : Frame w s s := by constructor <;> simp

/-! ## The program counter is in no frame -/

theorem frame_advance {w : Writes} {s t : State} (h : Frame w s t) : Frame w s (advance t) := by
  cases h
  constructor <;> simpa

theorem frame_jumpTo {w : Writes} {s t : State} (v : Word) (h : Frame w s t) : Frame w s (jumpTo t v) := by
  cases h
  constructor <;> simpa

theorem frame_skipIf (s : State) (b : Bool) : Frame {} s (skipIf s b) := by constructor <;> simp

/-! ## Registers and timers -/

theorem frame_setReg (s : State) (x : Reg) (v : Byte) : Frame { regs := fun r => r == x } s (setReg s x v) := by
  constructor <;> try simp
  intro r hr
  simp [hr]

theorem frame_setIdx (s : State) (v : Word) : Frame { idx := true } s (setIdx s v) := by
  constructor <;> simp [setIdx, State.reg]

theorem frame_setDelay (s : State) (v : Byte) : Frame { dt := true } s (setDelay s v) := by
  constructor <;> simp [setDelay, State.reg]

theorem frame_setSound (s : State) (v : Byte) : Frame { st := true } s (setSound s v) := by
  constructor <;> simp [setSound, State.reg]

/-! ## Flags and free values -/

theorem frame_writeWithFlag (s : State) (x : Reg) (v : Byte) (f : Bool) :
    Frame { regs := fun r => r == x || r == rf } s (writeWithFlag s x v f) := by
  constructor <;> try simp [writeWithFlag]
  intro r h1 h2
  rw [setReg_reg_ne _ _ h2, setReg_reg_ne _ _ h1]

theorem frame_writeUnspecified (s : State) (x : Reg) :
    Frame { regs := fun r => r == x || r == rf, draws := true } s (writeUnspecified s x) := by
  constructor
  · intro r
    simp only [Bool.or_eq_false_iff, beq_eq_false_iff_ne]
    rintro ⟨h1, h2⟩
    exact writeUnspecified_other s h1 h2
  all_goals (rw [writeUnspecified_eq]; try simp)

/-- An operation with a flag draws free values only when `RF` is an operand. -/
theorem frame_flaggedOp {s t : State} {x : Reg} {b : Bool} {v : Byte} {f : Bool}
    (h : flaggedOp s x b v f = .next t) : Frame { regs := fun r => r == x || r == rf, draws := b } s t := by
  rw [flaggedOp_eq] at h
  injection h with h
  subst h
  apply frame_advance
  cases b
  · simpa using frame_writeWithFlag s x v f
  · simpa using frame_writeUnspecified s x

theorem frame_takeRandom (s : State) : Frame { draws := true } s (takeRandom s).2 := by
  unfold takeRandom
  split <;> (constructor <;> simp [drawFree, State.reg])

/-! ## Register blocks -/

theorem frame_storeBlock (s : State) (n : Nat) : Frame { mem := blockAddrs s n } s (storeBlock s n) := by
  have h := storeBlock_eq s n
  constructor
  case mem => exact fun a ha => storeBlock_read_other s fun k hk => blockAddrs_eq_false ha hk
  case font => exact storeBlock_font s n
  all_goals (rw [h]; try simp [State.reg])

theorem frame_loadBlock (s : State) {n : Nat} (hn : n ≤ 16) :
    Frame { regs := fun r => decide (r.val < n) } s (loadBlock s n) := by
  have h := loadBlock_eq s n
  constructor
  case regs => exact fun r hr => by rw [loadBlock_reg s r hn, if_neg (by simpa using hr)]
  all_goals (rw [h]; try simp)

end Sys2Proof.Machine
end

