-- ==== Sys2Proof/Laws/Keys.lean ====
section
/-! SUPPORT. The keyboard mask: which key `WAITK` finds (spec rule R203), and what a key event changes (R224). -/

namespace Sys2Proof.Machine

theorem keyDown_of_ge (keys : Word) {k : Nat} (h : 16 ≤ k) : keyDown keys k = false := by
  simp [keyDown, show ¬ k < 16 by omega]

theorem keyDown_of_lt (keys : Word) {k : Nat} (h : k < 16) : keyDown keys k = keys.getLsbD k := by
  simp [keyDown, h]

/-- No key is found exactly when the mask is 0. -/
theorem lowestKey_eq_none (keys : Word) : lowestKey keys = none ↔ keys = 0 := by
  rw [lowestKey, List.find?_eq_none]
  constructor
  · intro h
    apply BitVec.eq_of_getLsbD_eq
    intro k hk
    have := h k (List.mem_range.mpr hk)
    rw [keyDown_of_lt keys hk] at this
    simpa using this
  · rintro rfl k _
    simp [keyDown]

/-- The key found is the lowest one that is down. -/
theorem lowestKey_eq_some (keys : Word) (k : Nat) :
    lowestKey keys = some k ↔ k < 16 ∧ keys.getLsbD k = true ∧ ∀ j, j < k → keys.getLsbD j = false := by
  rw [lowestKey, List.find?_range_eq_some]
  constructor
  · rintro ⟨h1, h2, h3⟩
    have hk : k < 16 := List.mem_range.mp h2
    refine ⟨hk, by rwa [keyDown_of_lt keys hk] at h1, fun j hj => ?_⟩
    have := h3 j hj
    rw [keyDown_of_lt keys (by omega)] at this
    simpa using this
  · rintro ⟨hk, h1, h2⟩
    refine ⟨by rwa [keyDown_of_lt keys hk], List.mem_range.mpr hk, fun j hj => ?_⟩
    rw [keyDown_of_lt keys (by omega), h2 j hj]
    rfl

/-- A key event sets or clears its own bit and no other (R224). -/
theorem hostKey_getLsbD (s : State) (k j : Fin 16) (down : Bool) :
    (hostKey k down s).keys.getLsbD j.val = if j = k then down else s.keys.getLsbD j.val := by
  have hj := j.isLt
  have hk := k.isLt
  by_cases e : j = k
  · subst e
    cases down <;> simp [hostKey]
  · have : j.val ≠ k.val := fun h => e (Fin.ext h)
    cases down <;> simp [hostKey, e, this]

end Sys2Proof.Machine
end

