-- ==== Sys2Proof/Laws/PerInstr.lean ====
section
/-! SUPPORT. Facts stated once per instruction: the word an instruction encodes to matches the row of the opcode map
(spec rule R92) that bears its mnemonic. -/

namespace Sys2Proof.Laws.RowOfEncoding

/-- Some row of the opcode map has the instruction's mnemonic and selects its word. -/
def Statement (i : Instr) : Prop := ∃ row ∈ opcodeRows, row.mnemonic = i.mnemonic ∧ row.selects (encode i) = true

/-- A row is shown by its match and mask. -/
theorem of_row {i : Instr} (row : OpcodeRow) (hrow : row ∈ opcodeRows) (hname : row.mnemonic = i.mnemonic)
    (h : encode i &&& row.mask = row.pattern) : Statement i :=
  ⟨row, hrow, hname, by simpa [OpcodeRow.selects] using h⟩

theorem cls : Statement (.cls) := of_row ⟨"CLS", 0x00E0, 0xFFFF⟩ (by decide) rfl (by decide)

theorem ret : Statement (.ret) := of_row ⟨"RET", 0x00EE, 0xFFFF⟩ (by decide) rfl (by decide)

theorem jp (nnn : Addr12) : Statement (.jp nnn) :=
  of_row ⟨"JP", 0x1000, 0xF000⟩ (by decide) rfl (by rw [encode, and_maskFam]; simp; decide)

theorem call (nnn : Addr12) : Statement (.call nnn) :=
  of_row ⟨"CALL", 0x2000, 0xF000⟩ (by decide) rfl (by rw [encode, and_maskFam]; simp; decide)

theorem sei (x : Reg) (kk : Byte) : Statement (.sei x kk) :=
  of_row ⟨"SEI", 0x3000, 0xF000⟩ (by decide) rfl (by rw [encode, and_maskFam]; simp; decide)

theorem snei (x : Reg) (kk : Byte) : Statement (.snei x kk) :=
  of_row ⟨"SNEI", 0x4000, 0xF000⟩ (by decide) rfl (by rw [encode, and_maskFam]; simp; decide)

theorem ser (x y : Reg) : Statement (.ser x y) :=
  of_row ⟨"SER", 0x5000, 0xF00F⟩ (by decide) rfl (by rw [encode, and_maskFamN]; simp; decide)

theorem ldi (x : Reg) (kk : Byte) : Statement (.ldi x kk) :=
  of_row ⟨"LDI", 0x6000, 0xF000⟩ (by decide) rfl (by rw [encode, and_maskFam]; simp; decide)

theorem addi (x : Reg) (kk : Byte) : Statement (.addi x kk) :=
  of_row ⟨"ADDI", 0x7000, 0xF000⟩ (by decide) rfl (by rw [encode, and_maskFam]; simp; decide)

theorem mov (x y : Reg) : Statement (.mov x y) :=
  of_row ⟨"MOV", 0x8000, 0xF00F⟩ (by decide) rfl (by rw [encode, and_maskFamN]; simp; decide)

theorem or (x y : Reg) : Statement (.or x y) :=
  of_row ⟨"OR", 0x8001, 0xF00F⟩ (by decide) rfl (by rw [encode, and_maskFamN]; simp; decide)

theorem and (x y : Reg) : Statement (.and x y) :=
  of_row ⟨"AND", 0x8002, 0xF00F⟩ (by decide) rfl (by rw [encode, and_maskFamN]; simp; decide)

theorem xor (x y : Reg) : Statement (.xor x y) :=
  of_row ⟨"XOR", 0x8003, 0xF00F⟩ (by decide) rfl (by rw [encode, and_maskFamN]; simp; decide)

theorem add (x y : Reg) : Statement (.add x y) :=
  of_row ⟨"ADD", 0x8004, 0xF00F⟩ (by decide) rfl (by rw [encode, and_maskFamN]; simp; decide)

theorem sub (x y : Reg) : Statement (.sub x y) :=
  of_row ⟨"SUB", 0x8005, 0xF00F⟩ (by decide) rfl (by rw [encode, and_maskFamN]; simp; decide)

theorem shr (x y : Reg) : Statement (.shr x y) :=
  of_row ⟨"SHR", 0x8006, 0xF00F⟩ (by decide) rfl (by rw [encode, and_maskFamN]; simp; decide)

theorem subn (x y : Reg) : Statement (.subn x y) :=
  of_row ⟨"SUBN", 0x8007, 0xF00F⟩ (by decide) rfl (by rw [encode, and_maskFamN]; simp; decide)

theorem shl (x y : Reg) : Statement (.shl x y) :=
  of_row ⟨"SHL", 0x800E, 0xF00F⟩ (by decide) rfl (by rw [encode, and_maskFamN]; simp; decide)

theorem sner (x y : Reg) : Statement (.sner x y) :=
  of_row ⟨"SNER", 0x9000, 0xF00F⟩ (by decide) rfl (by rw [encode, and_maskFamN]; simp; decide)

theorem ldx (nnn : Addr12) : Statement (.ldx nnn) :=
  of_row ⟨"LDX", 0xA000, 0xF000⟩ (by decide) rfl (by rw [encode, and_maskFam]; simp; decide)

theorem jpo (nnn : Addr12) : Statement (.jpo nnn) :=
  of_row ⟨"JPO", 0xB000, 0xF000⟩ (by decide) rfl (by rw [encode, and_maskFam]; simp; decide)

theorem rnd (x : Reg) (kk : Byte) : Statement (.rnd x kk) :=
  of_row ⟨"RND", 0xC000, 0xF000⟩ (by decide) rfl (by rw [encode, and_maskFam]; simp; decide)

theorem drw (x y : Reg) (n : RowCount) : Statement (.drw x y n) :=
  of_row ⟨"DRW", 0xD000, 0xF000⟩ (by decide) rfl (by rw [encode, and_maskFam]; simp; decide)

theorem skp (x : Reg) : Statement (.skp x) :=
  of_row ⟨"SKP", 0xE09E, 0xF0FF⟩ (by decide) rfl (by rw [encode, and_maskFamKK]; simp; decide)

theorem sknp (x : Reg) : Statement (.sknp x) :=
  of_row ⟨"SKNP", 0xE0A1, 0xF0FF⟩ (by decide) rfl (by rw [encode, and_maskFamKK]; simp; decide)

theorem lddt (x : Reg) : Statement (.lddt x) :=
  of_row ⟨"LDDT", 0xF007, 0xF0FF⟩ (by decide) rfl (by rw [encode, and_maskFamKK]; simp; decide)

theorem waitk (x : Reg) : Statement (.waitk x) :=
  of_row ⟨"WAITK", 0xF00A, 0xF0FF⟩ (by decide) rfl (by rw [encode, and_maskFamKK]; simp; decide)

theorem stdt (x : Reg) : Statement (.stdt x) :=
  of_row ⟨"STDT", 0xF015, 0xF0FF⟩ (by decide) rfl (by rw [encode, and_maskFamKK]; simp; decide)

theorem stst (x : Reg) : Statement (.stst x) :=
  of_row ⟨"STST", 0xF018, 0xF0FF⟩ (by decide) rfl (by rw [encode, and_maskFamKK]; simp; decide)

theorem addx (x : Reg) : Statement (.addx x) :=
  of_row ⟨"ADDX", 0xF01E, 0xF0FF⟩ (by decide) rfl (by rw [encode, and_maskFamKK]; simp; decide)

theorem font (x : Reg) : Statement (.font x) :=
  of_row ⟨"FONT", 0xF029, 0xF0FF⟩ (by decide) rfl (by rw [encode, and_maskFamKK]; simp; decide)

theorem bcd (x : Reg) : Statement (.bcd x) :=
  of_row ⟨"BCD", 0xF033, 0xF0FF⟩ (by decide) rfl (by rw [encode, and_maskFamKK]; simp; decide)

theorem stm (x : Reg) : Statement (.stm x) :=
  of_row ⟨"STM", 0xF055, 0xF0FF⟩ (by decide) rfl (by rw [encode, and_maskFamKK]; simp; decide)

theorem ldm (x : Reg) : Statement (.ldm x) :=
  of_row ⟨"LDM", 0xF065, 0xF0FF⟩ (by decide) rfl (by rw [encode, and_maskFamKK]; simp; decide)

end Sys2Proof.Laws.RowOfEncoding
end

