-- ==== Sys2Proof/Laws/Sprite.lean ====
section
/-! SUPPORT. What the two loops of `DRW` draw, pixel by pixel, and when they report a collision (spec rules R192, R195,
R196). -/

namespace Sys2Proof.Machine

/-! ## One pixel -/

@[simp] theorem pixel_blankScreen (r : Fin 32) (c : Fin 64) : pixel blankScreen r c = false := by
  simp [pixel, blankScreen]

/-- Flipping a pixel changes that pixel and no other. -/
theorem pixel_flipPixel (fb : Framebuffer) (r r' : Fin 32) (c c' : Fin 64) :
    pixel (flipPixel fb r c) r' c' = true ↔ ¬ (pixel fb r' c' = true ↔ r' = r ∧ c' = c) := by
  have hc : c'.val = c.val ↔ c' = c := ⟨Fin.ext, fun h => by rw [h]⟩
  by_cases hr : r' = r
  · subst hr
    by_cases e : c' = c
    · subst e
      simp [pixel, flipPixel]
    · have : c'.val ≠ c.val := fun h => e (Fin.ext h)
      simp [pixel, flipPixel, e, this]
  · have : r.val ≠ r'.val := fun h => hr (Fin.ext h.symm)
    simp [pixel, flipPixel, this, hr]

/-- Framebuffers with the same pixels are equal. -/
theorem framebuffer_ext {f g : Framebuffer} (h : ∀ r c, pixel f r c = pixel g r c) : f = g := by
  apply Vector.ext
  intro r hr
  apply BitVec.eq_of_getLsbD_eq
  intro c hc
  exact h ⟨r, hr⟩ ⟨c, hc⟩

/-! ## Two flips -/

/-- Flipping for `P` and then for `Q`, never for both, is flipping for either. -/
theorem flip_or {a P Q : Prop} (h : Q → ¬ P) : ¬ (¬ (a ↔ P) ↔ Q) ↔ ¬ (a ↔ P ∨ Q) := by
  by_cases hq : Q
  · simp [hq, h hq]
  · simp [hq]

theorem flip_none {a P : Prop} (h : ¬ P) : ¬ (a ↔ P) ↔ a := by simp [h]

/-! ## One sprite row -/

/-- Bit `col` of a sprite row byte is 1 and lands on column `c`, for some `col` below `n`. -/
def rowBit (b : Byte) (cx n : Nat) (c : Fin 64) : Prop :=
  ∃ col, col < n ∧ c.val = (cx + col) % 64 ∧ b.getLsbD (7 - col) = true

theorem rowBit_succ (b : Byte) (cx n : Nat) (c : Fin 64) :
    rowBit b cx (n + 1) c ↔ rowBit b cx n c ∨ (c.val = (cx + n) % 64 ∧ b.getLsbD (7 - n) = true) := by
  constructor
  · rintro ⟨col, h1, h2, h3⟩
    by_cases e : col = n
    · subst e; exact .inr ⟨h2, h3⟩
    · exact .inl ⟨col, by omega, h2, h3⟩
  · rintro (⟨col, h1, h2, h3⟩ | ⟨h2, h3⟩)
    · exact ⟨col, by omega, h2, h3⟩
    · exact ⟨n, by omega, h2, h3⟩

/-- The columns of one row are distinct (R196). -/
theorem not_rowBit_self (b : Byte) (cx : Nat) {n : Nat} (hn : n < 64) : ¬ rowBit b cx n (Fin.ofNat 64 (cx + n)) := by
  rintro ⟨col, h1, h2, _⟩
  simp only [Fin.ofNat] at h2
  omega

/-- One row XORs its 1 bits onto its framebuffer row, and collides when one of them meets a set pixel. -/
theorem drawBits_spec (b : Byte) (pr : Fin 32) (cx : Nat) (cv : Canvas) :
    ∀ n, n ≤ 8 →
      (∀ r c, pixel (drawBits b pr cx cv n).1 r c = true ↔ ¬ (pixel cv.1 r c = true ↔ r = pr ∧ rowBit b cx n c)) ∧
      ((drawBits b pr cx cv n).2 = true ↔ cv.2 = true ∨ ∃ c, rowBit b cx n c ∧ pixel cv.1 pr c = true) := by
  intro n
  induction n with
  | zero =>
    intro _
    have : ∀ c, ¬ rowBit b cx 0 c := by rintro c ⟨col, h, _⟩; omega
    simp [drawBits, this]
  | succ n ih =>
    intro hn
    obtain ⟨ih1, ih2⟩ := ih (by omega)
    have hself := not_rowBit_self b cx (n := n) (by omega)
    have hval : ∀ c : Fin 64, c.val = (cx + n) % 64 ↔ c = Fin.ofNat 64 (cx + n) :=
      fun c => ⟨fun h => Fin.ext h, fun h => by rw [h]; rfl⟩
    by_cases hb : b.getLsbD (7 - n) = true
    · have hs : ∀ c, rowBit b cx (n + 1) c ↔ rowBit b cx n c ∨ c = Fin.ofNat 64 (cx + n) := by
        intro c
        rw [rowBit_succ, ← hval]
        simp [hb]
      rw [drawBits, drawBit, if_pos hb]
      revert hs hself
      generalize Fin.ofNat 64 (cx + n) = q
      intro hself hs
      constructor
      · intro r c
        have hx : r = pr ∧ c = q → ¬ (r = pr ∧ rowBit b cx n c) := fun h h' => hself (h.2 ▸ h'.2)
        rw [pixel_flipPixel, ih1, hs, flip_or hx, and_or_left]
      · have hq : pixel (drawBits b pr cx cv n).1 pr q = true ↔ pixel cv.1 pr q = true := by
          rw [ih1, flip_none fun h => hself h.2]
        rw [Bool.or_eq_true, ih2, hq]
        constructor
        · rintro ((h | ⟨c, h1, h2⟩) | h)
          · exact .inl h
          · exact .inr ⟨c, (hs c).mpr (.inl h1), h2⟩
          · exact .inr ⟨q, (hs q).mpr (.inr rfl), h⟩
        · rintro (h | ⟨c, h1, h2⟩)
          · exact .inl (.inl h)
          · rcases (hs c).mp h1 with h1 | rfl
            · exact .inl (.inr ⟨c, h1, h2⟩)
            · exact .inr h2
    · have hs : ∀ c, rowBit b cx (n + 1) c ↔ rowBit b cx n c := by
        intro c
        rw [rowBit_succ]
        simp [hb]
      rw [drawBits, drawBit, if_neg hb]
      simp only [hs]
      exact ⟨ih1, ih2⟩

/-! ## The whole sprite -/

theorem spriteHits_succ (s : State) (vx vy : Byte) (n : Nat) (r : Fin 32) (c : Fin 64) :
    SpriteHits s vx vy (n + 1) r c ↔ SpriteHits s vx vy n r c ∨
      (r = Fin.ofNat 32 (vy.toNat + n) ∧ rowBit (memRead s (indexAddr s n)) (vx.toNat % 64) 8 c) := by
  have hmod : ∀ col, (vx.toNat % 64 + col) % 64 = (vx.toNat + col) % 64 := by intro col; omega
  constructor
  · rintro ⟨row, col, h1, h2, h3, h4, h5⟩
    by_cases e : row = n
    · subst e
      exact .inr ⟨Fin.ext h3, col, h2, by rw [hmod]; exact h4, h5⟩
    · exact .inl ⟨row, col, by omega, h2, h3, h4, h5⟩
  · rintro (⟨row, col, h1, h2, h3, h4, h5⟩ | ⟨rfl, col, h2, h4, h5⟩)
    · exact ⟨row, col, by omega, h2, h3, h4, h5⟩
    · exact ⟨n, col, by omega, h2, rfl, by rw [← hmod]; exact h4, h5⟩

/-- The rows of one sprite are distinct (R196). -/
theorem not_spriteHits_row (s : State) (vx vy : Byte) {n : Nat} (hn : n < 32) (c : Fin 64) :
    ¬ SpriteHits s vx vy n (Fin.ofNat 32 (vy.toNat + n)) c := by
  rintro ⟨row, col, h1, _, h3, _⟩
  simp only [Fin.ofNat] at h3
  omega

/-- A sprite XORs its 1 bits onto the screen, and collides when one of them meets a set pixel (R192, R195). -/
theorem drawRows_spec (s : State) (vx vy : Byte) :
    ∀ n, n ≤ 32 →
      (∀ r c, pixel (drawRows s vx vy n).1 r c = true ↔ ¬ (pixel s.fb r c = true ↔ SpriteHits s vx vy n r c)) ∧
      ((drawRows s vx vy n).2 = true ↔ ∃ r c, SpriteHits s vx vy n r c ∧ pixel s.fb r c = true) := by
  intro n
  induction n with
  | zero =>
    intro _
    have : ∀ r c, ¬ SpriteHits s vx vy 0 r c := by rintro r c ⟨row, col, h, _⟩; omega
    simp [drawRows, this]
  | succ n ih =>
    intro hn
    obtain ⟨ih1, ih2⟩ := ih (by omega)
    obtain ⟨d1, d2⟩ := drawBits_spec (memRead s (indexAddr s n)) (Fin.ofNat 32 (vy.toNat + n)) (vx.toNat % 64)
      (drawRows s vx vy n) 8 (by omega)
    have hself := not_spriteHits_row s vx vy (n := n) (by omega)
    have hs := spriteHits_succ s vx vy n
    rw [drawRows]
    revert d1 d2 hself hs
    generalize Fin.ofNat 32 (vy.toNat + n) = q
    intro d1 d2 hself hs
    constructor
    · intro r c
      have hx : r = q ∧ rowBit (memRead s (indexAddr s n)) (vx.toNat % 64) 8 c → ¬ SpriteHits s vx vy n r c :=
        fun h h' => hself c (h.1 ▸ h')
      rw [d1, ih1, hs, flip_or hx]
    · have hq : ∀ c, pixel (drawRows s vx vy n).1 q c = true ↔ pixel s.fb q c = true := by
        intro c
        rw [ih1, flip_none (hself c)]
      rw [d2, ih2]
      simp only [hq]
      constructor
      · rintro (⟨r, c, h1, h2⟩ | ⟨c, h1, h2⟩)
        · exact ⟨r, c, (hs r c).mpr (.inl h1), h2⟩
        · exact ⟨q, c, (hs q c).mpr (.inr ⟨rfl, h1⟩), h2⟩
      · rintro ⟨r, c, h1, h2⟩
        rcases (hs r c).mp h1 with h1 | ⟨rfl, h1⟩
        · exact .inl ⟨r, c, h1, h2⟩
        · exact .inr ⟨c, h1, h2⟩

/-- A pixel where the sprite has a 1 bit is inverted. -/
theorem drawRows_hit {s : State} {vx vy : Byte} {n : Nat} (hn : n ≤ 32) {r : Fin 32} {c : Fin 64}
    (h : SpriteHits s vx vy n r c) : pixel (drawRows s vx vy n).1 r c = !pixel s.fb r c := by
  have := (drawRows_spec s vx vy n hn).1 r c
  rw [Bool.eq_iff_iff, this]
  simp [h]

/-- A pixel where it has none keeps its value. -/
theorem drawRows_miss {s : State} {vx vy : Byte} {n : Nat} (hn : n ≤ 32) {r : Fin 32} {c : Fin 64}
    (h : ¬ SpriteHits s vx vy n r c) : pixel (drawRows s vx vy n).1 r c = pixel s.fb r c := by
  have := (drawRows_spec s vx vy n hn).1 r c
  rw [Bool.eq_iff_iff, this]
  simp [h]

end Sys2Proof.Machine
end

