-- ==== Sys2Proof/Laws/Step.lean ====
section
/-! SUPPORT. What the execute phase and a step can answer, said once (spec rules R123, R129, R217). -/

namespace Sys2Proof.Machine

/-! ## The execute phase -/

/-- The execute phase of an instruction answers a next state unless it is a `CALL` on a full stack or a `RET` on an
empty one. -/
theorem exec_cases (i : Instr) (s : State) :
    (∃ t, exec i s = .next t) ∨
    (∃ nnn, i = .call nnn ∧ s.sp = 16 ∧ exec i s = .fault (.stackOverflow s.pc)) ∨
    (i = .ret ∧ s.sp = 0 ∧ exec i s = .fault (.stackUnderflow s.pc)) := by
  cases i
  case ret =>
    rcases popReturn_cases (s := s) with ⟨h, h'⟩ | ⟨h, h'⟩
    · exact .inr (.inr ⟨rfl, h, by simp only [exec, execRet, h', raise]⟩)
    · exact .inl ⟨_, by simp only [exec, execRet, h']; rfl⟩
  case call nnn =>
    rcases pushReturn_cases (s := s) (v := s.pc + 2#16) with ⟨h, h'⟩ | ⟨h, h'⟩
    · exact .inr (.inl ⟨nnn, rfl, h, by simp only [exec, execCall, h', raise]⟩)
    · exact .inl ⟨_, by simp only [exec, execCall, h']; rfl⟩
  case waitk x =>
    left
    simp only [exec, execWaitk]
    cases lowestKey s.keys with
    | none => exact ⟨_, rfl⟩
    | some k => exact ⟨_, rfl⟩
  all_goals exact .inl ⟨_, rfl⟩

/-! ## Phases 4 and 5 -/

/-- A finished answer is a next state only after a next state. -/
theorem finishStep_next {a : Answer} {t : State} (h : finishStep a = .next t) :
    ∃ u, a = .next u ∧ t = report (tick u) := by
  cases a with
  | next u => exact ⟨u, rfl, by simpa [finishStep] using h.symm⟩
  | fault f => simp [finishStep] at h
  | refused r => simp [finishStep] at h

theorem finishStep_fault {a : Answer} {f : Fault} (h : finishStep a = .fault f) : a = .fault f := by
  cases a with
  | next u => simp [finishStep] at h
  | fault g => simpa [finishStep] using h
  | refused r => simp [finishStep] at h

/-! ## A step -/

theorem fetch_of_le {s : State} (h : s.pc.toNat ≤ 4094) : fetch s = .ok (wordAt s.mem s.pc) := by
  rw [fetch, if_neg (by omega)]

theorem fetch_of_gt {s : State} (h : 4094 < s.pc.toNat) : fetch s = .error (.pcOutOfRange s.pc) := by
  rw [fetch, if_pos h]

/-- Whatever `pc` is, a step fails at the fetch, runs an instruction, or meets an unrecognized word. -/
theorem fetched_cases (s : State) : 4094 < s.pc.toNat ∨ (∃ i, Runs s i) ∨ RunsUnrecognized s := by
  by_cases h : 4094 < s.pc.toNat
  · exact .inl h
  · cases hd : decodeWord (wordAt s.mem s.pc) with
    | none => exact .inr (.inr ⟨by omega, hd⟩)
    | some i => exact .inr (.inl ⟨i, by omega, hd⟩)

theorem step_of_gt {s : State} (h : 4094 < s.pc.toNat) : step s = .fault (.pcOutOfRange s.pc) := by
  rw [step, fetch_of_gt h]
  rfl

theorem step_of_unrecognized {s : State} (h : RunsUnrecognized s) :
    step s = finishStep (execUnrecognized (wordAt s.mem s.pc) (beginStep s)) := by
  rw [step, fetch_of_le h.1]
  simp only [h.2]

theorem step_of_instr {s : State} {i : Instr} (h : Runs s i) : step s = finishStep (exec i (beginStep s)) := by
  rw [step, fetch_of_le h.1]
  simp only [h.2]

/-- A step that runs an instruction runs that one only. -/
theorem Runs.unique {s : State} {i j : Instr} (hi : Runs s i) (hj : Runs s j) : i = j :=
  Option.some.inj (hi.2.symm.trans hj.2)

theorem RunsUnrecognized.not_runs {s : State} (h : RunsUnrecognized s) (i : Instr) : ¬ Runs s i := by
  intro hi
  have := h.2.symm.trans hi.2
  simp at this

/-- All a successful step can do. -/
theorem step_next_cases {s t : State} (h : step s = .next t) :
    (∃ i u, Runs s i ∧ exec i (beginStep s) = .next u ∧ t = report (tick u)) ∨
    (RunsUnrecognized s ∧
      t = report (tick (advance { beginStep s with
        out := { (beginStep s).out with diag := some { word := wordAt s.mem s.pc, pc := s.pc } } }))) := by
  rcases fetched_cases s with hp | ⟨i, hi⟩ | hu
  · rw [step_of_gt hp] at h
    simp at h
  · rw [step_of_instr hi] at h
    obtain ⟨u, hu, ht⟩ := finishStep_next h
    exact .inl ⟨i, u, hi, hu, ht⟩
  · rw [step_of_unrecognized hu] at h
    obtain ⟨u, hv, ht⟩ := finishStep_next h
    refine .inr ⟨hu, ?_⟩
    rw [ht]
    simp only [execUnrecognized, Host.Outcome.next.injEq] at hv
    rw [← hv]
    rfl

/-- All a failed step can be. -/
theorem step_fault_cases {s : State} {f : Fault} (h : step s = .fault f) :
    (4094 < s.pc.toNat ∧ f = .pcOutOfRange s.pc) ∨
    (∃ nnn, Runs s (.call nnn) ∧ s.sp = 16 ∧ f = .stackOverflow s.pc) ∨
    (Runs s .ret ∧ s.sp = 0 ∧ f = .stackUnderflow s.pc) := by
  rcases fetched_cases s with hp | ⟨i, hi⟩ | hu
  · rw [step_of_gt hp] at h
    exact .inl ⟨hp, by simpa using h.symm⟩
  · rw [step_of_instr hi] at h
    have h := finishStep_fault h
    rcases exec_cases i (beginStep s) with ⟨t, ht⟩ | ⟨nnn, rfl, hs, hf⟩ | ⟨rfl, hs, hf⟩
    · rw [ht] at h; simp at h
    · rw [hf] at h
      exact .inr (.inl ⟨nnn, hi, hs, by simpa using h.symm⟩)
    · rw [hf] at h
      exact .inr (.inr ⟨hi, hs, by simpa using h.symm⟩)
  · rw [step_of_unrecognized hu] at h
    have h := finishStep_fault h
    simp [execUnrecognized] at h

/-! ## Runs of several steps -/

theorem stepsTo_zero {s t : State} : StepsTo 0 s t ↔ t = s := by
  simp only [StepsTo, Host.Core.run]
  exact ⟨fun h => (Host.Outcome.next.inj h).symm, fun h => by rw [h]⟩

/-- A run of `k + 1` steps is a step and then a run of `k`. -/
theorem stepsTo_succ {k : Nat} {s t : State} : StepsTo (k + 1) s t ↔ ∃ u, step s = .next u ∧ StepsTo k u t := by
  unfold StepsTo
  simp only [Host.Core.run]
  cases hs : step s with
  | next u =>
    have hc : core.step s = .next u := hs
    simp only [hc, Host.Outcome.next.injEq]
    constructor
    · intro h; exact ⟨u, rfl, h⟩
    · rintro ⟨v, rfl, h⟩; exact h
  | fault f =>
    have hc : core.step s = .fault f := hs
    simp [hc]
  | refused r =>
    have hc : core.step s = .refused r := hs
    simp [hc]

/-- A run of `k + 1` steps is a run of `k` and then a step. -/
theorem stepsTo_succ_last {k : Nat} : ∀ {s t : State}, StepsTo (k + 1) s t ↔ ∃ u, StepsTo k s u ∧ step u = .next t := by
  induction k with
  | zero =>
    intro s t
    rw [stepsTo_succ]
    simp only [stepsTo_zero]
    constructor
    · rintro ⟨u, h, rfl⟩; exact ⟨s, rfl, h⟩
    · rintro ⟨u, rfl, h⟩; exact ⟨t, h, rfl⟩
  | succ k ih =>
    intro s t
    rw [stepsTo_succ]
    constructor
    · rintro ⟨u, h, h'⟩
      obtain ⟨v, hv, ht⟩ := ih.mp h'
      exact ⟨v, stepsTo_succ.mpr ⟨u, h, hv⟩, ht⟩
    · rintro ⟨v, hv, ht⟩
      obtain ⟨u, h, h'⟩ := stepsTo_succ.mp hv
      exact ⟨u, h, ih.mpr ⟨v, h', ht⟩⟩

end Sys2Proof.Machine
end

