-- ==== Sys2Proof/Machine/Assembly.lean ====
section
/-! DEFINITION. The assembly notation of the spec (rules R110 to R112): how an instruction is written, and the image
that a program text stands for. No step of the machine uses it. -/

namespace Sys2Proof.Machine

/-- A register as it is written: `R0` .. `R9`, `RA` .. `RF` (R110). -/
def regText (r : Reg) : String :=
  match r.val with
  | 10 => "RA"
  | 11 => "RB"
  | 12 => "RC"
  | 13 => "RD"
  | 14 => "RE"
  | 15 => "RF"
  | n => "R" ++ toString n

/-- A mnemonic and its operands. -/
def operandText (i : Instr) (operands : List String) : String := i.mnemonic ++ " " ++ ", ".intercalate operands

/-- An instruction as it is written, immediates and addresses in decimal (R110). `SHR` and `SHL` have the one-operand
spelling for `y = 0` and the two-operand spelling for any other `y` (R111). -/
def assemblyText (i : Instr) : String :=
  match i with
  | .cls => i.mnemonic
  | .ret => i.mnemonic
  | .jp nnn => operandText i [toString nnn.toNat]
  | .call nnn => operandText i [toString nnn.toNat]
  | .sei x kk => operandText i [regText x, toString kk.toNat]
  | .snei x kk => operandText i [regText x, toString kk.toNat]
  | .ser x y => operandText i [regText x, regText y]
  | .ldi x kk => operandText i [regText x, toString kk.toNat]
  | .addi x kk => operandText i [regText x, toString kk.toNat]
  | .mov x y => operandText i [regText x, regText y]
  | .or x y => operandText i [regText x, regText y]
  | .and x y => operandText i [regText x, regText y]
  | .xor x y => operandText i [regText x, regText y]
  | .add x y => operandText i [regText x, regText y]
  | .sub x y => operandText i [regText x, regText y]
  | .shr x y => operandText i (if y = 0 then [regText x] else [regText x, regText y])
  | .subn x y => operandText i [regText x, regText y]
  | .shl x y => operandText i (if y = 0 then [regText x] else [regText x, regText y])
  | .sner x y => operandText i [regText x, regText y]
  | .ldx nnn => operandText i [toString nnn.toNat]
  | .jpo nnn => operandText i [toString nnn.toNat]
  | .rnd x kk => operandText i [regText x, toString kk.toNat]
  | .drw x y n => operandText i [regText x, regText y, toString n.val]
  | .skp x => operandText i [regText x]
  | .sknp x => operandText i [regText x]
  | .lddt x => operandText i [regText x]
  | .waitk x => operandText i [regText x]
  | .stdt x => operandText i [regText x]
  | .stst x => operandText i [regText x]
  | .addx x => operandText i [regText x]
  | .font x => operandText i [regText x]
  | .bcd x => operandText i [regText x]
  | .stm x => operandText i [regText x]
  | .ldm x => operandText i [regText x]

/-- One line of a program, its labels already turned into addresses: an instruction, or `.byte v, ...` (R111). -/
inductive SourceLine where
  | instr (i : Instr)
  | bytes (vs : List Byte)
  deriving DecidableEq, Repr

/-- The bytes a line stands for. -/
def SourceLine.image : SourceLine → List Byte
  | .instr i => encodeBytes i
  | .bytes vs => vs

/-- The image of a program, to be given to `LOAD` (R111). -/
def assemble (program : List SourceLine) : List Byte := program.flatMap SourceLine.image

/-- The address a label stands for, from the lines before it: that of the next byte, the first being 512 (R111). -/
def labelAddress (before : List SourceLine) : Nat := 512 + (assemble before).length

/-- An assembler refuses a program that breaks the flag-register constraint (R112). -/
def SourceLine.accepted : SourceLine → Bool
  | .instr i => i.wellFormed
  | .bytes _ => true

end Sys2Proof.Machine
end

