-- ==== Sys2Proof/Tests/Slice0.lean ====
section
/-! SUPPORT. The model's own tests. Expected values are the spec's: S<n> and V<n> are the examples and vectors of spec
file 95_test_vectors.md, and words are written out from the rows of R92. After them, for each statement that has
hypotheses, a concrete state and operands that meet all of them (`test_witness_<statement>`). -/

namespace Sys2Proof.Tests

open Sys2Proof Sys2Proof.Machine

/-! ## Helpers -/

/-- A state with some registers set. -/
def withRegs (l : List (Reg × Byte)) (s : State) : State := l.foldl (fun t p => setReg t p.1 p.2) s

/-- A state with some bytes of memory set. -/
def withBytes (l : List (Nat × Byte)) (s : State) : State :=
  { s with mem := l.foldl (fun m p => m.write p.1 p.2) s.mem }

/-- A screen with exactly these pixels on. -/
def lit (l : List (Fin 32 × Fin 64)) : Framebuffer := l.foldl (fun fb p => flipPixel fb p.1 p.2) blankScreen

/-- The start state of a vector: after `RESET`, with registers set and a word at `0x200`. -/
def start (w : Nat) (l : List (Reg × Byte) := []) : State := (withRegs l State.reset).withFetchWord 16 w

/-- The step succeeds, at this `pc`, in a state with this property. -/
def ends (a : Answer) (pc : Word) (p : State → Bool) : Bool :=
  match a with
  | .next t => t.pc == pc && p t
  | .fault _ => false
  | .refused _ => false

/-- The step fails in this way. -/
def fails (a : Answer) (f : Fault) : Bool :=
  match a with
  | .next _ => false
  | .fault g => g == f
  | .refused _ => false

/-- The state of an answer; after a failure the state after `RESET`, which no test below meets. -/
def stateOf (a : Answer) : State :=
  match a with
  | .next t => t
  | .fault _ => State.reset
  | .refused _ => State.reset

/-! ## Well-formedness: every check refuses an ill-formed term (R22, R103, R112) -/

theorem test_wellFormed_refuses_add : Instr.wellFormed (.add 15 2) = false ∧ Instr.wellFormed (.add 1 15) = false := by
  decide
theorem test_wellFormed_refuses_sub : Instr.wellFormed (.sub 15 2) = false ∧ Instr.wellFormed (.sub 1 15) = false := by
  decide
theorem test_wellFormed_refuses_subn : Instr.wellFormed (.subn 15 2) = false ∧ Instr.wellFormed (.subn 1 15) = false := by
  decide
theorem test_wellFormed_refuses_shifts : Instr.wellFormed (.shr 15 2) = false ∧ Instr.wellFormed (.shl 15 2) = false := by
  decide
theorem test_wellFormed_accepts : Instr.wellFormed (.add 1 2) = true ∧ Instr.wellFormed (.shr 1 15) = true ∧
    Instr.wellFormed (.mov 15 15) = true := by decide

/-! ## Decoding: a word of every row, written out from R92 -/

theorem test_decode_control : decodeWord 0x00E0 = some .cls ∧ decodeWord 0x00EE = some .ret ∧
    decodeWord 0x1234 = some (.jp 0x234) ∧ decodeWord 0x2FED = some (.call 0xFED) ∧
    decodeWord 0xBFFF = some (.jpo 0xFFF) := by decide
theorem test_decode_skips : decodeWord 0x3A42 = some (.sei 10 0x42) ∧ decodeWord 0x4A42 = some (.snei 10 0x42) ∧
    decodeWord 0x5120 = some (.ser 1 2) ∧ decodeWord 0x9120 = some (.sner 1 2) ∧
    decodeWord 0xEF9E = some (.skp 15) ∧ decodeWord 0xE2A1 = some (.sknp 2) := by decide
theorem test_decode_alu : decodeWord 0x6A7F = some (.ldi 10 0x7F) ∧ decodeWord 0x7101 = some (.addi 1 1) ∧
    decodeWord 0x8120 = some (.mov 1 2) ∧ decodeWord 0x8121 = some (.or 1 2) ∧ decodeWord 0x8122 = some (.and 1 2) ∧
    decodeWord 0x8123 = some (.xor 1 2) ∧ decodeWord 0x8124 = some (.add 1 2) ∧ decodeWord 0x8125 = some (.sub 1 2) ∧
    decodeWord 0x8126 = some (.shr 1 2) ∧ decodeWord 0x8127 = some (.subn 1 2) ∧
    decodeWord 0x812E = some (.shl 1 2) := by decide
theorem test_decode_index_memory : decodeWord 0xA300 = some (.ldx 0x300) ∧ decodeWord 0xF21E = some (.addx 2) ∧
    decodeWord 0xF129 = some (.font 1) ∧ decodeWord 0xF033 = some (.bcd 0) ∧ decodeWord 0xFF55 = some (.stm 15) ∧
    decodeWord 0xF465 = some (.ldm 4) := by decide
theorem test_decode_display_timers : decodeWord 0xC30F = some (.rnd 3 0x0F) ∧ decodeWord 0xD125 = some (.drw 1 2 5) ∧
    decodeWord 0xF107 = some (.lddt 1) ∧ decodeWord 0xF20A = some (.waitk 2) ∧ decodeWord 0xF015 = some (.stdt 0) ∧
    decodeWord 0xF018 = some (.stst 0) := by decide
/-- V2 to V9: words of the families that have gaps. -/
theorem test_decode_gaps : [0x0000, 0x8128, 0x812F, 0x5121, 0x9121, 0xE200, 0xF200, 0x00E1, 0x0123].all
    (fun w : Word => decodeWord w == none) = true := by decide
theorem test_decode_bytes : decode [0x12, 0x34, 0xFF] = .ok (.jp 0x234, [0xFF]) ∧ decode [0x12] = .error .truncated ∧
    decode [0x81, 0x28] = .error (.unrecognized 0x8128) := by decide
theorem test_decode_table_word : decodeTableWord 16 0x1234 = some (.jp 0x234) ∧ decodeTableWord 16 0x0000 = none := by
  decide

/-! ## Assembly notation -/

/-- Program P1 of 95_test_vectors.md: its image, and the address of its label. -/
theorem test_assemble : assemble [.instr (.ldi 0 10), .instr (.addi 0 5), .instr (.jp 0x204)] =
    [0x60, 0x0A, 0x70, 0x05, 0x12, 0x04] ∧
    labelAddress [.instr (.ldi 0 10), .instr (.addi 0 5)] = 0x204 := by decide
/-- R110, R111: spellings. -/
theorem test_assembly_text : assemblyText (.ldi 0 10) = "LDI R0, 10" ∧ assemblyText (.shr 1 0) = "SHR R1" ∧
    assemblyText (.shl 1 2) = "SHL R1, R2" ∧ assemblyText (.drw 15 10 5) = "DRW RF, RA, 5" := by decide
/-- R112 -/
theorem test_assembler_refuses : SourceLine.accepted (.instr (.sub 1 15)) = false ∧
    SourceLine.accepted (.bytes [0x81, 0xF5]) = true := by decide

/-! ## The step -/

/-- V2 -/
theorem test_step_unrecognized : ends (step { start 0x0000 with dt := 1, st := 2 }) 0x202
    (fun t => t.dt == 0 && t.st == 1 &&
      t.out == { redrawNeeded := false, toneActive := true, diag := some { word := 0, pc := 0x200 } }) = true := by decide
/-- V10 -/
theorem test_step_pc_4095 : fails (step { State.reset with pc := 4095 }) (.pcOutOfRange 4095) = true := by decide
/-- V13 -/
theorem test_step_pc_4094 : ends (step (State.withFetchWord { State.reset with pc := 4094 } 16 0x6007)) 4096
    (fun t => t.reg 0 == 7) = true := by decide

/-! ## Control transfer -/

/-- V20 -/
theorem test_jp : ends (step (start 0x1301)) 0x301 (fun _ => true) = true := by decide
/-- V25: the sixteenth entry -/
theorem test_call_last : ends (step { start 0x2300 with sp := 15 }) 0x300
    (fun t => t.stk[15] == 0x202 && t.sp == 16) = true := by decide
/-- V24 -/
theorem test_call_full : fails (step { start 0x2300 with sp := 16 }) (.stackOverflow 0x200) = true := by decide
/-- V29 -/
theorem test_ret_newest : ends (step { start 0x00EE with sp := 2, stk := (Vector.replicate 16 0x400).set 1 0x500 }) 0x500
    (fun t => t.sp == 1) = true := by decide
/-- V27 -/
theorem test_ret_empty : fails (step (start 0x00EE)) (.stackUnderflow 0x200) = true := by decide
/-- V31 -/
theorem test_jpo : ends (step (start 0xBFFF [(0, 0xFF)])) 0x10FE (fun _ => true) = true := by decide
/-- V32: the register is always `R0` -/
theorem test_jpo_register : ends (step (start 0xB3FE [(0, 2), (3, 0x77)])) 0x400 (fun _ => true) = true := by decide

/-! ## Skips -/

/-- V40, V41 -/
theorem test_sei : ends (step (start 0x3A42 [(10, 0x42)])) 0x204 (fun _ => true) = true ∧
    ends (step (start 0x3A42 [(10, 0x41)])) 0x202 (fun _ => true) = true := by decide
/-- V42, V43 -/
theorem test_snei : ends (step (start 0x4A42 [(10, 0x41)])) 0x204 (fun _ => true) = true ∧
    ends (step (start 0x4A42 [(10, 0x42)])) 0x202 (fun _ => true) = true := by decide
/-- V44, V45 -/
theorem test_ser : ends (step (start 0x5120 [(1, 9), (2, 9)])) 0x204 (fun _ => true) = true ∧
    ends (step (start 0x5120 [(1, 9), (2, 8)])) 0x202 (fun _ => true) = true := by decide
/-- V47, V48 -/
theorem test_sner : ends (step (start 0x9120 [(1, 9), (2, 8)])) 0x204 (fun _ => true) = true ∧
    ends (step (start 0x9120 [(1, 9), (2, 9)])) 0x202 (fun _ => true) = true := by decide
/-- V51: a skip ticks once -/
theorem test_skip_tick : ends (step { start 0x3A42 [(10, 0x42)] with dt := 2 }) 0x204 (fun t => t.dt == 1) = true := by
  decide

/-! ## Register immediates and ALU -/

/-- V60 -/
theorem test_ldi : ends (step (start 0x6A7F)) 0x202 (fun t => t.reg 10 == 0x7F) = true := by decide
/-- V61 -/
theorem test_addi : ends (step (start 0x7101 [(1, 0xFF), (15, 0x55)])) 0x202
    (fun t => t.reg 1 == 0 && t.reg 15 == 0x55) = true := by decide
/-- V62 -/
theorem test_addi_rf : ends (step (start 0x7F02 [(15, 0xFF)])) 0x202 (fun t => t.reg 15 == 1) = true := by decide
/-- V63 -/
theorem test_mov : ends (step (start 0x8120 [(2, 0x33)])) 0x202 (fun t => t.reg 1 == 0x33) = true := by decide
/-- V65 -/
theorem test_or : ends (step (start 0x8121 [(1, 0xF0), (2, 0x0F), (15, 0x77)])) 0x202
    (fun t => t.reg 1 == 0xFF && t.reg 15 == 0x77) = true := by decide
/-- V66 -/
theorem test_and : ends (step (start 0x8122 [(1, 0xF3), (2, 0x3F)])) 0x202 (fun t => t.reg 1 == 0x33) = true := by decide
/-- V67 -/
theorem test_xor : ends (step (start 0x8123 [(1, 0xFF), (2, 0x0F)])) 0x202 (fun t => t.reg 1 == 0xF0) = true := by decide
/-- V70 -/
theorem test_add_carry : ends (step (start 0x8124 [(1, 0xFF), (2, 0xFF)])) 0x202
    (fun t => t.reg 1 == 0xFE && t.reg 15 == 1) = true := by decide
/-- V71 -/
theorem test_add_no_carry : ends (step (start 0x8124 [(1, 0x80), (2, 0x7F), (15, 1)])) 0x202
    (fun t => t.reg 1 == 0xFF && t.reg 15 == 0) = true := by decide
/-- V74 -/
theorem test_sub_borrow : ends (step (start 0x8125 [(1, 3), (2, 5)])) 0x202
    (fun t => t.reg 1 == 0xFE && t.reg 15 == 0) = true := by decide
/-- V75 -/
theorem test_sub_equal : ends (step (start 0x8125 [(1, 7), (2, 7)])) 0x202
    (fun t => t.reg 1 == 0 && t.reg 15 == 1) = true := by decide
/-- V78 -/
theorem test_subn : ends (step (start 0x8127 [(1, 3), (2, 5)])) 0x202
    (fun t => t.reg 1 == 2 && t.reg 2 == 5 && t.reg 15 == 1) = true := by decide
/-- V79 -/
theorem test_subn_borrow : ends (step (start 0x8127 [(1, 5), (2, 3)])) 0x202
    (fun t => t.reg 1 == 0xFE && t.reg 15 == 0) = true := by decide
/-- V81 -/
theorem test_shr : ends (step (start 0x8126 [(1, 0xFE), (2, 0x55), (15, 1)])) 0x202
    (fun t => t.reg 1 == 0x7F && t.reg 2 == 0x55 && t.reg 15 == 0) = true := by decide
/-- V89: `RF` as the `y` field of a shift is no operand -/
theorem test_shr_y_rf : ends (step (start 0x81F6 [(1, 3), (15, 9)])) 0x202
    (fun t => t.reg 1 == 1 && t.reg 15 == 1) = true := by decide
/-- V83 -/
theorem test_shl : ends (step (start 0x810E [(1, 0x81)])) 0x202 (fun t => t.reg 1 == 2 && t.reg 15 == 1) = true := by
  decide
/-- V84 -/
theorem test_shl_no_carry : ends (step (start 0x810E [(1, 0x7F), (15, 1)])) 0x202
    (fun t => t.reg 1 == 0xFE && t.reg 15 == 0) = true := by decide
/-- V86, V87: everything but the two unspecified results -/
theorem test_flag_operand : ends (step (start 0x8F24 [(15, 3), (2, 1)])) 0x202 (fun t => t.reg 2 == 1) = true ∧
    ends (step (start 0x81F4 [(1, 0x10), (15, 1), (2, 7)])) 0x202 (fun t => t.reg 2 == 7) = true := by decide

/-! ## Index register and memory -/

/-- V100 -/
theorem test_ldx : ends (step (start 0xA300)) 0x202 (fun t => t.idx == 0x300) = true := by decide
/-- V102 -/
theorem test_addx : ends (step { start 0xF11E [(1, 1), (15, 0x33)] with idx := 0xFFFF }) 0x202
    (fun t => t.idx == 0 && t.reg 15 == 0x33) = true := by decide
/-- V107 -/
theorem test_font : ends (step (start 0xF129 [(1, 0xFF)])) 0x202 (fun t => t.idx == 0x4FB) = true := by decide
/-- V108 -/
theorem test_bcd : ends (step { start 0xF033 [(0, 156)] with idx := 0x300 }) 0x202
    (fun t => t.mem.read 0x300 == 1 && t.mem.read 0x301 == 5 && t.mem.read 0x302 == 6 && t.idx == 0x300) = true := by
  decide
/-- V112 -/
theorem test_bcd_wrap : ends (step { start 0xF133 [(1, 123)] with idx := 0x1FFE }) 0x202
    (fun t => t.mem.read 4094 == 1 && t.mem.read 4095 == 2 && t.mem.read 0 == 3 && t.idx == 0x1FFE) = true := by decide
/-- V114 -/
theorem test_stm_wrap : ends
    (step { start 0xF355 [(0, 0x10), (1, 0x11), (2, 0x12), (3, 0x13), (4, 0x14)] with idx := 0x0FFE }) 0x202
    (fun t => t.mem.read 4094 == 0x10 && t.mem.read 4095 == 0x11 && t.mem.read 0 == 0x12 && t.mem.read 1 == 0x13 &&
      t.mem.read 2 == 0x90) = true := by decide
/-- V115 -/
theorem test_stm_one : ends (step { start 0xF055 [(0, 0x11), (1, 0x22)] with idx := 0x400 }) 0x202
    (fun t => t.mem.read 0x400 == 0x11 && t.mem.read 0x401 == 0) = true := by decide
/-- V116 -/
theorem test_ldm : ends (step { start 0xF465 [(5, 0x99)] with idx := 5 }) 0x202
    (fun t => t.reg 0 == 0x20 && t.reg 1 == 0x60 && t.reg 2 == 0x20 && t.reg 3 == 0x20 && t.reg 4 == 0x70 &&
      t.reg 5 == 0x99) = true := by decide
/-- V118 -/
theorem test_ldm_wrap : ends (step { start 0xF165 with idx := 0x0FFF }) 0x202
    (fun t => t.reg 0 == 0 && t.reg 1 == 0xF0) = true := by decide

/-! ## Screen, random byte, sprites -/

/-- V130 -/
theorem test_cls : ends (step { start 0x00E0 [(15, 9)] with fb := lit [(3, 4)] }) 0x202
    (fun t => t.fb == blankScreen && t.reg 15 == 9 && t.out.redrawNeeded) = true := by decide
/-- V132 -/
theorem test_rnd : ends (step { start 0xC30F with rndIn := [0xA7] }) 0x202 (fun t => t.reg 3 == 7) = true := by decide
/-- V133 -/
theorem test_rnd_presented : (hostStep 0xFF (start 0xC300 [(3, 0x55)])).1.reg 3 = 0 := by decide
/-- V137 -/
theorem test_drw_wrap : ends (step (withBytes [(0x300, 0xC3)] { start 0xD011 [(0, 126), (1, 37)] with idx := 0x300 })) 0x202
    (fun t => t.fb == lit [(5, 62), (5, 63), (5, 4), (5, 5)] && t.reg 15 == 0 && t.out.redrawNeeded) = true := by decide
/-- V139 -/
theorem test_drw_collision : ends
    (step (withBytes [(0x300, 0xF0)] { start 0xD011 [(0, 4), (1, 2)] with idx := 0x300, fb := lit [(2, 7)] })) 0x202
    (fun t => t.fb == lit [(2, 4), (2, 5), (2, 6)] && t.reg 15 == 1) = true := by decide

/-! ## Keys and timers -/

/-- V160, V162 -/
theorem test_skp : ends (step { start 0xE29E [(2, 7)] with keys := 0x0080 }) 0x204 (fun _ => true) = true ∧
    ends (step { start 0xE29E [(2, 0x17)] with keys := 0xFFFF }) 0x202 (fun _ => true) = true := by decide
/-- V163, V164 -/
theorem test_sknp : ends (step { start 0xE2A1 [(2, 0x17)] with keys := 0xFFFF }) 0x204 (fun _ => true) = true ∧
    ends (step { start 0xE2A1 [(2, 7)] with keys := 0x0080 }) 0x202 (fun _ => true) = true := by decide
/-- V166 -/
theorem test_lddt : ends (step { start 0xF107 with dt := 2 }) 0x202 (fun t => t.reg 1 == 2 && t.dt == 1) = true := by decide
/-- V175 -/
theorem test_waitk : ends (step { start 0xF20A with keys := 0x0280 }) 0x202
    (fun t => t.reg 2 == 7 && t.keys == 0x0280) = true := by decide
/-- V174, its first step -/
theorem test_waitk_none : ends (step { start 0xF20A [(2, 0xEE)] with dt := 2, st := 3 }) 0x200
    (fun t => t.reg 2 == 0xEE && t.dt == 1 && t.st == 2 && t.out.toneActive) = true := by decide
/-- V168 -/
theorem test_stdt : ends (step (start 0xF015 [(0, 3)])) 0x202 (fun t => t.dt == 2) = true := by decide
/-- V171 -/
theorem test_stst : ends (step (start 0xF018 [(0, 3)])) 0x202 (fun t => t.st == 2 && t.out.toneActive) = true := by decide
/-- V173 -/
theorem test_stst_inaudible : ends (step (start 0xF018 [(0, 1)])) 0x202 (fun t => t.st == 0 && !t.out.toneActive) = true := by
  decide

/-! ## Host transactions -/

/-- V191 -/
theorem test_load : ends (hostLoad [0x60, 0x0A] State.reset) 0x200
    (fun t => t.mem.read 0x200 == 0x60 && t.mem.read 0x201 == 0x0A && t.mem.read 0x202 == 0) = true := by decide
/-- V196 -/
theorem test_keys : (hostKey 3 false (hostKey 5 true (hostKey 3 true State.reset))).keys = 0x0020 := by decide
/-- R32: the linear index of row 3, column 4 -/
theorem test_flat_pixel : hostPixelFlat { State.reset with fb := lit [(3, 4)] } 196 = true ∧
    hostPixelFlat { State.reset with fb := lit [(3, 4)] } 259 = false := by decide
/-- V198 -/
theorem test_failed_step : hostStep 0 (start 0x00EE) = (start 0x00EE, .failed (.stackUnderflow 0x200)) := by decide
/-- V197 -/
theorem test_reset_again : hostReset (start 0x6A7F [(1, 9)]) = State.reset := by decide

/-! ## Witnesses: states and operands that meet all hypotheses of a statement -/

/-- `R0 = 3` and a `STDT R0`, an unrecognized word after it, then an `LDDT R1`. -/
def timerProgram : State :=
  withBytes [(0x204, 0xF1), (0x205, 0x07)] (start 0xF015 [(0, 3)])

/-- The same with `STST R0` first. -/
def soundProgram : State := start 0xF018 [(0, 3)]

/-- `CALL 0xFFE` in the last free stack slot, and a `RET` at 4094. -/
def callProgram : State := withBytes [(4094, 0x00), (4095, 0xEE)] { start 0x2FFE with sp := 15 }

/-- An `STM R1` that stores `R0`, `R1` over the next instruction. -/
def storeProgram : State := { start 0xF155 [(0, 0x60), (1, 0x2A)] with idx := 0x202 }

/-- A `DRW R0, R1, 1` of one set pixel at column 63 of row 31. -/
def drawProgram : State :=
  withBytes [(0x300, 0x80)] { start 0xD011 [(0, 63), (1, 31)] with idx := 0x300, fb := lit [(31, 63)] }

theorem test_witness_DecodedWordIsTheEncodingOfItsInstruction : decodeWord 0xFF65 = some (.ldm 15) := by decide

theorem test_witness_WordSelectsTheRowOfItsInstruction :
    (⟨"LDM", 0xF065, 0xF0FF⟩ : OpcodeRow) ∈ opcodeRows ∧ (0xFF65 : Word) &&& 0xF0FF = 0xF065 := by decide

/-- At the last fetch address, an instruction whose execute phase answers a next state. -/
theorem test_witness_StepRunsTheDecodedInstruction_next :
    let s := State.withFetchWord { State.reset with pc := 4094 } 16 0x6007
    s.pc.toNat ≤ 4094 ∧ decodeWord (s.mem.read s.pc.toNat ++ s.mem.read (s.pc.toNat + 1)) = some (.ldi 0 7) ∧
      ∃ u, exec (.ldi 0 7) { s with out := StepOutput.clear } = .next u := ⟨by decide, by decide, _, rfl⟩

/-- One whose execute phase fails. -/
theorem test_witness_StepRunsTheDecodedInstruction_fault :
    let s := start 0x00EE
    s.pc.toNat ≤ 4094 ∧ decodeWord (s.mem.read s.pc.toNat ++ s.mem.read (s.pc.toNat + 1)) = some .ret ∧
      exec .ret { s with out := StepOutput.clear } = .fault (.stackUnderflow 0x200) := ⟨by decide, by decide, rfl⟩

theorem test_witness_PlacedInstructionIsTheOneTheStepRuns : ({ State.reset with pc := 4094 } : State).pc.toNat ≤ 4094 := by
  decide

theorem test_witness_UnrecognizedWordIsANoOpWithADiagnostic : RunsUnrecognized (start 0x8128) :=
  ⟨by decide, by decide⟩

theorem test_witness_StepBeyondTheLastFetchAddressFails :
    4094 < ({ State.reset with pc := 4095 } : State).pc.toNat ∧ ({ State.reset with pc := 4094 } : State).pc.toNat ≤ 4094 := by
  decide

theorem test_witness_FetchedWordIsBigEndian : ({ State.reset with pc := 4094 } : State).pc.toNat ≤ 4094 := by decide

/-- Each of the three conditions of failure. -/
theorem test_witness_StepFailsOnlyInTheThreeReportedWays :
    4094 < ({ State.reset with pc := 4095 } : State).pc.toNat ∧
    (Runs { start 0x2300 with sp := 16 } (.call 0x300) ∧ ({ start 0x2300 with sp := 16 } : State).sp.val = 16) ∧
    (Runs (start 0x00EE) .ret ∧ (start 0x00EE).sp.val = 0) :=
  ⟨by decide, ⟨⟨by decide, by decide⟩, by decide⟩, ⟨by decide, by decide⟩, by decide⟩

theorem test_witness_FailedStepChangesNothingAndFailsAgain :
    (hostStep 0xFF (start 0x00EE)).2 = .failed (.stackUnderflow 0x200) := by decide

/-- A `STDT`, and a step that is neither `STDT` nor `STST` nor `LDDT`. -/
theorem test_witness_TimersTickOncePerSuccessfulStep_delay :
    (∃ t, step (start 0xF015 [(0, 3)]) = .next t) ∧ Runs (start 0xF015 [(0, 3)]) (.stdt 0) ∧
    (∃ t, step (start 0x6A7F) = .next t) ∧ (∀ x, ¬ Runs (start 0x6A7F) (.stdt x)) ∧
    (∀ x, ¬ Runs (start 0x6A7F) (.stst x)) := by
  refine ⟨⟨_, rfl⟩, ⟨by decide, by decide⟩, ⟨_, rfl⟩, fun x h => ?_, fun x h => ?_⟩
  · have : decodeWord (wordAt (start 0x6A7F).mem (start 0x6A7F).pc) = some (.ldi 10 0x7F) := by decide
    simp [h.2] at this
  · have : decodeWord (wordAt (start 0x6A7F).mem (start 0x6A7F).pc) = some (.ldi 10 0x7F) := by decide
    simp [h.2] at this

/-- A `STST`, an `LDDT`, and a failed step. -/
theorem test_witness_TimersTickOncePerSuccessfulStep_sound :
    (∃ t, step (start 0xF018 [(0, 3)]) = .next t) ∧ Runs (start 0xF018 [(0, 3)]) (.stst 0) ∧
    (∃ t, step (start 0xF107) = .next t) ∧ Runs (start 0xF107) (.lddt 1) ∧
    (hostStep 0 { start 0x00EE with dt := 3 }).2 = .failed (.stackUnderflow 0x200) :=
  ⟨⟨_, rfl⟩, ⟨by decide, by decide⟩, ⟨_, rfl⟩, ⟨by decide, by decide⟩, by decide⟩

/-- A jump, a call, a return from a full stack, and a `WAITK`. -/
theorem test_witness_StepSetsThePcAsTheInstructionSays_transfers :
    (∃ t, step (start 0x1FFF) = .next t ∧ Runs (start 0x1FFF) (.jp 0xFFF)) ∧
    (∃ t, step (start 0x2FFF) = .next t ∧ Runs (start 0x2FFF) (.call 0xFFF)) ∧
    (∃ t, step (start 0xBFFF) = .next t ∧ Runs (start 0xBFFF) (.jpo 0xFFF)) ∧
    (∃ t, step { start 0x00EE with sp := 16 } = .next t ∧ Runs { start 0x00EE with sp := 16 } .ret ∧
      ({ start 0x00EE with sp := 16 } : State).sp.val = (15 : Fin 16).val + 1) ∧
    (∃ t, step (start 0xF20A) = .next t ∧ Runs (start 0xF20A) (.waitk 2)) :=
  ⟨⟨_, rfl, by decide, by decide⟩, ⟨_, rfl, by decide, by decide⟩, ⟨_, rfl, by decide, by decide⟩,
   ⟨_, rfl, ⟨by decide, by decide⟩, by decide⟩, ⟨_, rfl, by decide, by decide⟩⟩

/-- The four register skips, the key skips with the last key, and an instruction of none of the listed kinds. -/
theorem test_witness_StepSetsThePcAsTheInstructionSays_others :
    (∃ t, step (start 0x3AFF) = .next t ∧ Runs (start 0x3AFF) (.sei 10 0xFF)) ∧
    (∃ t, step (start 0x4A00) = .next t ∧ Runs (start 0x4A00) (.snei 10 0)) ∧
    (∃ t, step (start 0x5120) = .next t ∧ Runs (start 0x5120) (.ser 1 2)) ∧
    (∃ t, step (start 0x9120) = .next t ∧ Runs (start 0x9120) (.sner 1 2)) ∧
    (∃ t, step (start 0xE29E [(2, 15)]) = .next t ∧ Runs (start 0xE29E [(2, 15)]) (.skp 2) ∧
      ((start 0xE29E [(2, 15)]).reg 2).toNat = (15 : Fin 16).val) ∧
    (∃ t, step (start 0xE2A1 [(2, 15)]) = .next t ∧ Runs (start 0xE2A1 [(2, 15)]) (.sknp 2) ∧
      ((start 0xE2A1 [(2, 15)]).reg 2).toNat = (15 : Fin 16).val) ∧
    (∃ t, step (start 0x6A7F) = .next t ∧ Runs (start 0x6A7F) (.ldi 10 0x7F) ∧ (Instr.ldi 10 0x7F).mnemonic ∉
      ["JP", "CALL", "JPO", "RET", "SEI", "SNEI", "SER", "SNER", "SKP", "SKNP", "WAITK"]) :=
  ⟨⟨_, rfl, by decide, by decide⟩, ⟨_, rfl, by decide, by decide⟩, ⟨_, rfl, by decide, by decide⟩,
   ⟨_, rfl, by decide, by decide⟩, ⟨_, rfl, ⟨by decide, by decide⟩, by decide⟩,
   ⟨_, rfl, ⟨by decide, by decide⟩, by decide⟩, ⟨_, rfl, ⟨by decide, by decide⟩, by decide⟩⟩

/-- `CLS`, `DRW`, a step with the tone on, and an unrecognized word. -/
theorem test_witness_EffectFlagsReportTheStep :
    (∃ t, step (start 0x00E0) = .next t ∧ Runs (start 0x00E0) .cls) ∧
    (∃ t, step (start 0xD011) = .next t ∧ Runs (start 0xD011) (.drw 0 1 1)) ∧
    (∃ t, step (start 0xF018 [(0, 3)]) = .next t ∧ t.st.toNat ≠ 0) ∧
    (∃ t, step (start 0x8128) = .next t ∧ RunsUnrecognized (start 0x8128)) :=
  ⟨⟨_, rfl, by decide, by decide⟩, ⟨_, rfl, by decide, by decide⟩, ⟨_, rfl, by decide⟩, ⟨_, rfl, by decide, by decide⟩⟩

/-- Two states that differ in a dead slot, with one live entry, about to push over that slot. -/
theorem test_witness_DeadStackSlotsAreUnobservable :
    SameLive { start 0x2300 with sp := 1 } { start 0x2300 with sp := 1, stk := (Vector.replicate 16 0).set 1 7 } ∧
    ({ start 0x2300 with sp := 1 } : State) ≠ { start 0x2300 with sp := 1, stk := (Vector.replicate 16 0).set 1 7 } :=
  ⟨⟨rfl, by decide⟩, by decide⟩

theorem test_witness_RandomInputMattersOnlyToRndAndFlagOperandWords :
    Runs (start 0x8124) (.add 1 2) ∧ (Instr.add 1 2).wellFormed = true ∧ (∀ x kk, Instr.add 1 2 ≠ .rnd x kk) ∧
      ∃ t, step (start 0x8124) = .next t := ⟨⟨by decide, by decide⟩, by decide, by simp, _, rfl⟩

/-- An instruction that may change memory, and one that may change nothing. -/
theorem test_witness_InstructionsChangeOnlyWhatTheirTableRowNames :
    (∃ t, exec (.stm 15) { State.reset with idx := 0x0FFF } = .next t) ∧ ∃ t, exec (.jp 0xFFF) State.reset = .next t :=
  ⟨⟨_, rfl⟩, ⟨_, rfl⟩⟩

/-- The invariant at its bounds: `pc = 4094` is the last that runs, and a live entry of 4096. -/
theorem test_witness_EveryStepKeepsTheInvariant :
    let s := State.withFetchWord { State.reset with pc := 4094, sp := 1, stk := Vector.replicate 16 4096 } 16 0x00EE
    Inv s ∧ ∃ t, step s = .next t := ⟨⟨by decide, by decide, by decide⟩, _, rfl⟩

/-- The invariant at its bounds, where a step fails, and an image that a load rejects. -/
theorem test_witness_EveryTransactionKeepsTheInvariant :
    let s := { State.reset with pc := 4350, sp := 16, stk := Vector.replicate 16 4096 }
    Inv s ∧ (transact (.step 0) s).2 = .failed (.pcOutOfRange 4350) ∧
      3584 < (List.replicate 3585 (0 : Byte)).length := by
  refine ⟨⟨by decide, by decide, by decide⟩, by decide, ?_⟩
  simp only [List.length_replicate]
  omega

theorem test_witness_ReachableStatesMeetTheInvariant :
    Reachable (transact (.step 0) (transact (.load [0xBF, 0xFF]) (State.resetWith defaultFont)).1).1 :=
  .transact _ _ (.transact _ _ (.reset _))

/-- The memory after `RESET`, and the same after a byte was changed and changed back. -/
theorem test_witness_CanonicalMemoriesThatReadAlikeAreEqual :
    let m := State.reset.mem
    let n := (State.reset.mem.write 5 0xAA).write 5 0x20
    m.wf ∧ n.wf ∧ m.font = n.font ∧ ∀ a, m.read a = n.read a := by
  have h : (State.reset.mem.write 5 0xAA).write 5 0x20 = State.reset.mem := by decide
  exact ⟨by decide, by rw [h]; decide, by rw [h], by rw [h]; exact fun _ => rfl⟩

/-- A step that changes the last byte of memory, and an instruction that is neither `DRW` nor `LDM`. -/
theorem test_witness_MemoryHasTheListedWritersAndReaders :
    let s := { start 0xF055 [(0, 0x11)] with idx := 0x0FFF }
    (transact (.step 0) s).1.mem.read 4095 ≠ s.mem.read 4095 ∧ (∃ t, exec (.stm 0) s = .next t) ∧
    (∀ x y n, Instr.stm 0 ≠ .drw x y n) ∧ (∀ x, Instr.stm 0 ≠ .ldm x) :=
  ⟨by decide, ⟨_, rfl⟩, by simp, by simp⟩

/-- A step with the lowest and the highest key down, and the three transactions that leave the key mask. -/
theorem test_witness_KeyMaskIsWrittenByTheHostOnly :
    (∃ t, step { start 0xF20A with keys := 0x8001 } = .next t) ∧
    ∀ tx ∈ [Transaction.load [0x60], .step 0, .readScreen], tx ≠ .reset ∧ ∀ k down, tx ≠ .key k down :=
  ⟨⟨_, rfl⟩, by decide⟩

/-- Addresses on both sides of each bound. -/
theorem test_witness_ResetSetsEveryItem : 79 < 80 ∧ 80 ≤ 80 := by decide

/-- The longest image, its first and last bytes and the addresses beside it, and one byte more. -/
theorem test_witness_LoadWritesTheImageOrRejectsItWhole :
    (List.replicate 3584 (0xAB : Byte)).length ≤ 3584 ∧ 3583 < (List.replicate 3584 (0xAB : Byte)).length ∧ 511 < 512 ∧
    512 + (List.replicate 3584 (0xAB : Byte)).length ≤ 4096 ∧ 3584 < (List.replicate 3585 (0xAB : Byte)).length := by
  simp only [List.length_replicate]
  omega

theorem test_witness_StoredWordIsFetchedByTheNextStep :
    Runs storeProgram (.stm 1) ∧ (∃ t, step storeProgram = .next t) ∧ (1 : Reg).val = (0 : Reg).val + 1 ∧
    (1 : Reg) ≤ 1 ∧ effAddr storeProgram 0 = storeProgram.pc.toNat + 2 ∧
    effAddr storeProgram 1 = storeProgram.pc.toNat + 3 :=
  ⟨⟨by decide, by decide⟩, ⟨_, rfl⟩, by decide, by decide, by decide, by decide⟩

theorem test_witness_CallThenReturnResumesAfterTheCall :
    callProgram.sp.val < 16 ∧ Runs callProgram (.call 0xFFE) ∧ (0xFFE : Addr12).toNat ≤ 4094 ∧
    decodeWord (wordAt callProgram.mem (addressOf 0xFFE)) = some .ret ∧
    (0 : Fin 16).val ≠ callProgram.sp.val ∧ (14 : Fin 16).val ≠ callProgram.sp.val :=
  ⟨by decide, ⟨by decide, by decide⟩, by decide, by decide, by decide, by decide⟩

/-- From 4092 on, two words of zeros up to the end of memory. -/
theorem test_witness_ZeroFilledMemoryIsSlidThrough :
    let s := { State.reset with pc := 4092 }
    (∀ a, s.pc.toNat ≤ a → a < 4096 → s.mem.read a = 0) ∧ s.pc.toNat + 2 * 2 ≤ 4096 := by
  refine ⟨fun a h1 h2 => ?_, by decide⟩
  have h1 : 4092 ≤ a := h1
  interval_cases a <;> decide

theorem test_witness_ParkedStateOnlyAgesItsTimers :
    Parked (State.withFetchWord { State.reset with pc := 4094 } 16 0x1FFE) := ⟨by decide, by decide⟩

theorem test_witness_WaitkPollsUntilAKeyIsDown : Runs (start 0xF20A) (.waitk 2) ∧ (start 0xF20A).keys = 0 :=
  ⟨⟨by decide, by decide⟩, by decide⟩

/-- One step between the write and the read. -/
theorem test_witness_DelayTimerIsReadWithItsSkew :
    Runs timerProgram (.stdt 0) ∧ StepsTo 2 timerProgram (stateOf (step (stateOf (step timerProgram)))) ∧
    (∀ j v, 1 ≤ j → j ≤ 1 → StepsTo j timerProgram v → ∀ z, ¬ Runs v (.stdt z)) ∧
    Runs (stateOf (step (stateOf (step timerProgram)))) (.lddt 1) ∧
    ∃ u, step (stateOf (step (stateOf (step timerProgram)))) = .next u := by
  refine ⟨⟨by decide, by decide⟩, rfl, fun j v h1 h2 h z hz => ?_, ⟨by decide, by decide⟩, _, rfl⟩
  obtain rfl : j = 1 := by omega
  have hv : v = stateOf (step timerProgram) := (Host.Outcome.next.inj h).symm
  have hd : decodeWord (wordAt (stateOf (step timerProgram)).mem (stateOf (step timerProgram)).pc) = none := by decide
  rw [← hv, hz.2] at hd
  simp at hd

/-- The targets on both sides of the last fetch address. -/
theorem test_witness_JpSetsThePc : 4094 < (0xFFF : Addr12).toNat ∧ ¬ 4094 < (0xFFE : Addr12).toNat := by decide

theorem test_witness_JpoAddsRegisterZero :
    4094 < ((start 0xBFFF [(0, 0xFF)]).reg 0).toNat + (0xFFF : Addr12).toNat ∧
    ¬ 4094 < ((start 0xBFFE).reg 0).toNat + (0xFFE : Addr12).toNat := by decide

/-- The last free slot, and a full stack. -/
theorem test_witness_CallSavesTheNextAddress :
    ({ State.reset with sp := 15 } : State).sp.val < 16 ∧ ({ State.reset with sp := 16 } : State).sp.val = 16 := by decide

/-- A full stack, one entry, and none. -/
theorem test_witness_RetTakesTheNewestAddress :
    ({ State.reset with sp := 16 } : State).sp.val = (15 : Fin 16).val + 1 ∧
    ({ State.reset with sp := 1 } : State).sp.val = (0 : Fin 16).val + 1 ∧ State.reset.sp.val = 0 := by decide

/-- The last key, and the first number that names none. -/
theorem test_witness_KeySkipsTestTheKeyARegisterNames :
    ((start 0xE29E [(2, 15)]).reg 2).toNat = (15 : Fin 16).val ∧ 16 ≤ ((start 0xE29E [(2, 16)]).reg 2).toNat := by decide

theorem test_witness_AddWritesTheSumAndTheCarry : (14 : Reg) ≠ 15 ∧ (0 : Reg) ≠ 15 := by decide
theorem test_witness_SubtractionsWriteTheDifferenceAndNoBorrow : (14 : Reg) ≠ 15 ∧ (14 : Reg) ≠ 15 := by decide
theorem test_witness_ShiftsWriteTheResultAndTheBitShiftedOut : (14 : Reg) ≠ 15 := by decide

/-- Each form of the hypothesis, and both cases of the conclusion. -/
theorem test_witness_FlagOperandsLeaveUnspecifiedResults :
    (∃ x y : Reg, ∃ i, (x = 15 ∨ y = 15) ∧ (i = Instr.add x y ∨ i = .sub x y ∨ i = .subn x y) ∧ x ≠ 15) ∧
    (∃ x y : Reg, ∃ i, x = 15 ∧ (i = Instr.shr x y ∨ i = .shl x y)) :=
  ⟨⟨1, 15, _, .inr rfl, .inl rfl, by decide⟩, ⟨15, 0, _, rfl, .inl rfl⟩⟩

/-- The addresses beside a stored block. -/
theorem test_witness_BcdStoresThreeDigits :
    let s := { State.reset with idx := 0x0FFF }
    2 ≠ effAddr s 0 ∧ 2 ≠ effAddr s 1 ∧ 2 ≠ effAddr s 2 := by decide

theorem test_witness_StmStoresTheRegistersUpToX :
    let s := { State.reset with idx := 0x0FFF }
    (15 : Reg) ≤ 15 ∧ ∀ k : Reg, k ≤ 15 → 15 ≠ effAddr s k.val := by decide

theorem test_witness_LdmLoadsTheRegistersUpToX : (0 : Reg) ≤ 0 ∧ (15 : Reg) ≤ 15 := by decide

/-- A byte presented, none presented, and a step that runs `RND`. -/
theorem test_witness_RndMasksTheRandomByte :
    ({ State.reset with rndIn := [0xA7] } : State).rndIn = 0xA7 :: [] ∧ State.reset.rndIn = [] ∧
    Runs (start 0xC30F) (.rnd 3 0x0F) := ⟨rfl, rfl, by decide, by decide⟩

/-- A pixel the sprite hits and that is on, one it misses, and a sprite that meets no pixel. -/
theorem test_witness_DrwInvertsThePixelsOfTheSprite :
    (SpriteHits drawProgram (drawProgram.reg 0) (drawProgram.reg 1) 1 31 63 ∧ pixel drawProgram.fb 31 63 = true) ∧
    ¬ SpriteHits drawProgram (drawProgram.reg 0) (drawProgram.reg 1) 1 0 0 ∧
    ¬ ∃ r c, SpriteHits drawProgram (drawProgram.reg 0) (drawProgram.reg 1) 0 r c ∧ pixel drawProgram.fb r c = true := by
  refine ⟨⟨⟨0, 0, by decide, by decide, by decide, by decide, by decide⟩, by decide⟩, ?_, ?_⟩
  · rintro ⟨row, col, h, _, h3, _⟩
    obtain rfl : row = 0 := by omega
    exact absurd h3 (by decide)
  · rintro ⟨r, c, ⟨row, col, h, _⟩, _⟩
    omega

theorem test_witness_CollisionMeansAPixelWasTurnedOff : ∃ t, exec (.drw 0 1 1) drawProgram = .next t := ⟨_, rfl⟩

theorem test_witness_DrawingASpriteTwiceRestoresTheScreen :
    ∃ t u, exec (.drw 0 1 1) drawProgram = .next t ∧ t.reg 0 = drawProgram.reg 0 ∧ t.reg 1 = drawProgram.reg 1 ∧
      exec (.drw 0 1 1) t = .next u := ⟨_, _, rfl, by decide, by decide, rfl⟩

theorem test_witness_LddtReadsTheDelayTimerBeforeTheTick : Runs (start 0xF107) (.lddt 1) := ⟨by decide, by decide⟩
theorem test_witness_StdtWritesTheDelayTimer : Runs (start 0xF015) (.stdt 0) := ⟨by decide, by decide⟩

/-- A `STST`, two steps from it, and no `STST` between. -/
theorem test_witness_StstWritesTheSoundTimerAndTheToneLasts :
    Runs soundProgram (.stst 0) ∧ StepsTo 2 soundProgram (stateOf (step (stateOf (step soundProgram)))) ∧
    (∀ j v, 1 ≤ j → j ≤ 1 → StepsTo j soundProgram v → ∀ z, ¬ Runs v (.stst z)) := by
  refine ⟨⟨by decide, by decide⟩, rfl, fun j v h1 h2 h z hz => ?_⟩
  obtain rfl : j = 1 := by omega
  have hv : v = stateOf (step soundProgram) := (Host.Outcome.next.inj h).symm
  have hd : decodeWord (wordAt (stateOf (step soundProgram)).mem (stateOf (step soundProgram)).pc) = none := by decide
  rw [← hv, hz.2] at hd
  simp at hd

/-- No key down, and the highest key alone. -/
theorem test_witness_WaitkStoresTheLowestKeyOrStays :
    State.reset.keys = 0 ∧ ({ State.reset with keys := 0x8000 } : State).keys ≠ 0 := by decide

end Sys2Proof.Tests
end

/-! # Lemmas for the state family: shared operations

What the shared operations leave of `pc` and of memory: the two items that a `Frame` does not speak of (`pc` is in
no frame, and a frame compares memory by its reads and not by its list of cells). -/

section
namespace Sys2Proof.Machine

variable (s : State)

@[simp] theorem writeWithFlag_pc (x : Reg) (v : Byte) (f : Bool) : (writeWithFlag s x v f).pc = s.pc := rfl
@[simp] theorem writeWithFlag_mem (x : Reg) (v : Byte) (f : Bool) : (writeWithFlag s x v f).mem = s.mem := rfl

@[simp] theorem writeUnspecified_pc (x : Reg) : (writeUnspecified s x).pc = s.pc := by rw [writeUnspecified_eq]
@[simp] theorem writeUnspecified_mem (x : Reg) : (writeUnspecified s x).mem = s.mem := by rw [writeUnspecified_eq]

@[simp] theorem storeBlock_pc (n : Nat) : (storeBlock s n).pc = s.pc := by rw [storeBlock_eq]

@[simp] theorem loadBlock_pc (n : Nat) : (loadBlock s n).pc = s.pc := by rw [loadBlock_eq]
@[simp] theorem loadBlock_mem (n : Nat) : (loadBlock s n).mem = s.mem := by rw [loadBlock_eq]

/-- `random_byte()` is a free value where the host presents no byte (R191). -/
theorem takeRandom_of_nil {s : State} (h : s.rndIn = []) : takeRandom s = drawFree s := by rw [takeRandom, h]

/-- `random_byte()` is the next byte the host presented (R191). -/
theorem takeRandom_of_cons {s : State} {b : Byte} {rest : List Byte} (h : s.rndIn = b :: rest) :
    takeRandom s = (b, { s with rndIn := rest }) := by rw [takeRandom, h]

@[simp] theorem takeRandom_pc : (takeRandom s).2.pc = s.pc := by
  cases h : s.rndIn with
  | nil => rw [takeRandom_of_nil h, drawFree]
  | cons b rest => rw [takeRandom_of_cons h]

@[simp] theorem takeRandom_mem : (takeRandom s).2.mem = s.mem := by
  cases h : s.rndIn with
  | nil => rw [takeRandom_of_nil h, drawFree]
  | cons b rest => rw [takeRandom_of_cons h]

/-- A 12-bit address is at most 4095 as a value of `pc` or `I` (R93). -/
theorem addressOf_le (nnn : Addr12) : (addressOf nnn).toNat ≤ 4095 := by
  have := nnn.isLt
  simp only [addressOf, BitVec.toNat_setWidth]
  omega

/-- A register value is at most 255 as a 16-bit value (R93). -/
theorem widen_le (v : Byte) : (widen v).toNat ≤ 255 := by
  have := v.isLt
  simp only [widen, BitVec.toNat_setWidth]
  omega

end Sys2Proof.Machine
end

/-! # `RET` and `CALL`, by the number of live entries (R140, R142) -/

section
namespace Sys2Proof.Machine

variable {s : State}

theorem execRet_of_succ {k : Fin 16} (h : s.sp = k.succ) :
    execRet s = .next (jumpTo { s with sp := k.castSucc } s.stk[k]) := by
  have hpos : 0 < s.sp.val := by simp [h]
  rw [execRet, popReturn_of_pos hpos]
  simp only [h, Fin.val_succ, Nat.add_sub_cancel]
  rfl

theorem execRet_of_empty (h : s.sp = 0) : execRet s = .fault (.stackUnderflow s.pc) := by
  rw [execRet, popReturn_empty h]
  rfl

theorem execCall_of_castSucc (nnn : Addr12) {k : Fin 16} (h : s.sp = k.castSucc) :
    execCall nnn s = .next (jumpTo { s with stk := s.stk.set k (s.pc + 2#16), sp := k.succ } (addressOf nnn)) := by
  have hlt : s.sp.val < 16 := by simp [h]
  rw [execCall, pushReturn_of_lt _ hlt]
  simp only [h, Fin.val_castSucc]
  rfl

theorem execCall_of_full (nnn : Addr12) (h : s.sp = Fin.last 16) :
    execCall nnn s = .fault (.stackOverflow s.pc) := by
  rw [execCall, pushReturn_full _ h]
  rfl

/-- A `RET` that completes had an entry to take off. -/
theorem execRet_next {t : State} (h : execRet s = .next t) :
    ∃ k : Fin 16, s.sp = k.succ ∧ t = jumpTo { s with sp := k.castSucc } s.stk[k] := by
  rcases Fin.eq_zero_or_eq_succ s.sp with h0 | ⟨k, hk⟩
  · simp [execRet_of_empty h0] at h
  · rw [execRet_of_succ hk] at h
    exact ⟨k, hk, (Host.Outcome.next.inj h).symm⟩

/-- A `CALL` that completes had a slot to fill. -/
theorem execCall_next {nnn : Addr12} {t : State} (h : execCall nnn s = .next t) :
    ∃ k : Fin 16, s.sp = k.castSucc ∧
      t = jumpTo { s with stk := s.stk.set k (s.pc + 2#16), sp := k.succ } (addressOf nnn) := by
  rcases Fin.eq_castSucc_or_eq_last s.sp with ⟨k, hk⟩ | h16
  · rw [execCall_of_castSucc nnn hk] at h
    exact ⟨k, hk, (Host.Outcome.next.inj h).symm⟩
  · simp [execCall_of_full nnn h16] at h

end Sys2Proof.Machine
end

/-! # `WAITK`, by the keys that are down (R203) -/

section
namespace Sys2Proof.Machine

variable {s t : State}

theorem keys_ne_zero_of_lowestKey {keys : Word} {k : Nat} (h : lowestKey keys = some k) : keys ≠ 0 := by
  intro h0
  rw [(lowestKey_eq_none keys).mpr h0] at h
  simp at h

theorem execWaitk_of_none {x : Reg} (h : lowestKey s.keys = none) : execWaitk x s = .next s := by rw [execWaitk, h]

theorem execWaitk_of_some {x : Reg} {k : Nat} (h : lowestKey s.keys = some k) :
    execWaitk x s = .next (advance (setReg s x (BitVec.ofNat 8 k))) := by rw [execWaitk, h]

/-- All a `WAITK` can do. -/
theorem execWaitk_next {x : Reg} (h : execWaitk x s = .next t) :
    (lowestKey s.keys = none ∧ t = s) ∨
    (∃ k, lowestKey s.keys = some k ∧ t = advance (setReg s x (BitVec.ofNat 8 k))) := by
  cases hk : lowestKey s.keys with
  | none => exact .inl ⟨rfl, (Host.Outcome.next.inj ((execWaitk_of_none hk).symm.trans h)).symm⟩
  | some k => exact .inr ⟨k, rfl, (Host.Outcome.next.inj ((execWaitk_of_some hk).symm.trans h)).symm⟩

end Sys2Proof.Machine
end

/-! # The frame of the execute phase -/

section
namespace Sys2Proof.Machine

variable {i : Instr} {s t : State}

theorem frame_cls (s : State) :
    Frame { screen := true, redraw := true } s (requestRedraw (setScreen s blankScreen)) := by
  constructor <;> simp

theorem frame_drw (s : State) (fb : Framebuffer) (v : Byte) :
    Frame { regs := fun r => r == rf, screen := true, redraw := true } s
      (requestRedraw (setReg (setScreen s fb) rf v)) := by
  constructor
  case regs =>
    intro r hr
    have hne : r ≠ rf := by simpa using hr
    simp [hne]
  all_goals simp

/-- `RND` changes its register, and takes the random byte from where `takeRandom` says. -/
theorem frame_rnd (s : State) (x : Reg) (v : Byte) :
    Frame { regs := fun r => r == x, draws := true } s (setReg (takeRandom s).2 x v) := by
  have htake := frame_takeRandom s
  have hset := frame_setReg (takeRandom s).2 x v
  constructor
  case regs => exact fun r hr => (hset.regs r hr).trans (htake.regs r rfl)
  case draws => simp
  all_goals simp [htake.idx, htake.stack, htake.dt, htake.st, htake.keys, htake.screen, htake.redraw,
    htake.output]

/-- The three stores of `BCD` go to the block of three addresses from `I` (R183). -/
theorem frame_bcd (s : State) (a b c : Byte) :
    Frame { mem := blockAddrs s 3 } s
      (memWrite (memWrite (memWrite s (indexAddr s 0) a) (indexAddr s 1) b) (indexAddr s 2) c) := by
  constructor
  case mem =>
    intro addr haddr
    have hne : ∀ k, k < 3 → ¬ addr = indexAddr s k % 4096 := fun k hk => blockAddrs_eq_false haddr hk
    rw [memWrite_read, if_neg (hne 2 (by decide)), memWrite_read, if_neg (hne 1 (by decide)), memWrite_read,
      if_neg (hne 0 (by decide))]
  all_goals simp

theorem frame_execRet (h : execRet s = .next t) : Frame { stack := true } s t := by
  obtain ⟨k, -, rfl⟩ := execRet_next h
  constructor <;> simp [State.reg]

theorem frame_execCall {nnn : Addr12} (h : execCall nnn s = .next t) : Frame { stack := true } s t := by
  obtain ⟨k, -, rfl⟩ := execCall_next h
  constructor <;> simp [State.reg]

/-- `WAITK` changes its register, and only when a key is down (R203). -/
theorem frame_execWaitk {x : Reg} (h : execWaitk x s = .next t) :
    Frame { regs := fun r => r == x && s.keys != 0 } s t := by
  rcases execWaitk_next h with ⟨-, rfl⟩ | ⟨k, hk, rfl⟩
  · exact frame_refl _ _
  · have hkeys : (s.keys != 0) = true := bne_iff_ne.mpr (keys_ne_zero_of_lowestKey hk)
    simpa only [hkeys, Bool.and_true] using frame_advance (frame_setReg s x (BitVec.ofNat 8 k))

/-- An instruction changes nothing but `pc` and what its row of the table of R22 names. -/
theorem exec_frame (h : exec i s = .next t) : Frame (writesOf i s) s t := by
  cases i
  case ret => exact frame_execRet h
  case call nnn => exact frame_execCall h
  case waitk x => exact frame_execWaitk h
  case add | sub | shr | subn | shl => exact frame_flaggedOp h
  all_goals obtain rfl := Host.Outcome.next.inj h
  case jp | jpo => exact frame_jumpTo _ (frame_refl _ s)
  case sei | snei | ser | sner | skp | sknp => exact frame_skipIf s _
  case ldi | addi | mov | or | and | xor | lddt => exact frame_advance (frame_setReg s _ _)
  case ldx | addx | font => exact frame_advance (frame_setIdx s _)
  case stdt => exact frame_advance (frame_setDelay s _)
  case stst => exact frame_advance (frame_setSound s _)
  case cls => exact frame_advance (frame_cls s)
  case rnd x kk => exact frame_advance (frame_rnd s x _)
  case drw => exact frame_advance (frame_drw s _ _)
  case bcd => exact frame_advance (frame_bcd s _ _ _)
  case stm x => exact frame_advance (frame_storeBlock s _)
  case ldm x =>
    have hregs : (fun r : Reg => decide (r.val < x.val + 1)) = fun r => decide (r ≤ x) := by
      simp only [Nat.lt_succ_iff, Fin.le_def]
    have hblock := frame_loadBlock s x.isLt
    rw [Nat.succ_eq_add_one, hregs] at hblock
    exact frame_advance hblock

/-- Settles O19, by the frame of each shared operation. -/
theorem instructionsChangeOnlyWhatTheirTableRowNames :
    Obligations.InstructionsChangeOnlyWhatTheirTableRowNames :=
  fun _ _ _ h => exec_frame h

end Sys2Proof.Machine
end

/-! # Where `pc` goes (R24) -/

section
namespace Sys2Proof.Machine

variable {i : Instr} {s t : State}

/-- The `pc` that a completed execute phase leaves, instruction by instruction (R24). A `RET` with no live entry does
not complete; the value here for it has no meaning. -/
def nextPc (i : Instr) (s : State) : Word :=
  match i with
  | .jp nnn => addressOf nnn
  | .call nnn => addressOf nnn
  | .jpo nnn => widen (s.reg 0) + addressOf nnn
  | .ret => if h : s.sp = 0 then s.pc else s.stk[s.sp.pred h]
  | .sei x kk => s.pc + (if s.reg x = kk then 4#16 else 2#16)
  | .snei x kk => s.pc + (if s.reg x ≠ kk then 4#16 else 2#16)
  | .ser x y => s.pc + (if s.reg x = s.reg y then 4#16 else 2#16)
  | .sner x y => s.pc + (if s.reg x ≠ s.reg y then 4#16 else 2#16)
  | .skp x => s.pc + (if keyPressed s x then 4#16 else 2#16)
  | .sknp x => s.pc + (if keyPressed s x then 2#16 else 4#16)
  | .waitk _ => if s.keys = 0 then s.pc else s.pc + 2#16
  | _ => s.pc + 2#16

/-- A `RET` takes the newest live entry. -/
theorem nextPc_ret_of_succ {k : Fin 16} (h : s.sp = k.succ) : nextPc .ret s = s.stk[k] := by
  have hne : s.sp ≠ 0 := h ▸ Fin.succ_ne_zero k
  have hpred : s.sp.pred hne = k := by simp only [h, Fin.pred_succ]
  simp only [nextPc, dif_neg hne, hpred]

theorem execWaitk_pc {x : Reg} (h : execWaitk x s = .next t) :
    t.pc = if s.keys = 0 then s.pc else s.pc + 2#16 := by
  rcases execWaitk_next h with ⟨hk, rfl⟩ | ⟨k, hk, rfl⟩
  · rw [if_pos ((lowestKey_eq_none _).mp hk)]
  · rw [if_neg (keys_ne_zero_of_lowestKey hk), advance_pc, setReg_pc]

theorem flaggedOp_pc {x : Reg} {b : Bool} {v : Byte} {f : Bool} (h : flaggedOp s x b v f = .next t) :
    t.pc = s.pc + 2#16 := by
  obtain rfl := Host.Outcome.next.inj h
  cases b <;> simp

/-- A completed execute phase leaves `pc` where `nextPc` says. -/
theorem exec_pc (h : exec i s = .next t) : t.pc = nextPc i s := by
  cases i
  case ret =>
    obtain ⟨k, hk, rfl⟩ := execRet_next h
    exact (nextPc_ret_of_succ hk).symm
  case call nnn =>
    obtain ⟨k, -, rfl⟩ := execCall_next h
    rfl
  case waitk x => exact execWaitk_pc h
  case add | sub | shr | subn | shl => exact flaggedOp_pc h
  all_goals obtain rfl := Host.Outcome.next.inj h
  case sei | snei | ser | sner | skp | sknp => rw [skipIf_pc]; simp [nextPc, apply_ite]
  all_goals simp [nextPc]

@[simp] theorem nextPc_beginStep (i : Instr) (s : State) : nextPc i (beginStep s) = nextPc i s := by cases i <;> rfl

/-- Phases 2, 4 and 5 of a step leave `pc` alone. -/
theorem step_pc (hi : Runs s i) (h : step s = .next t) : t.pc = nextPc i s := by
  rw [step_of_instr hi] at h
  obtain ⟨u, hu, rfl⟩ := finishStep_next h
  exact (exec_pc hu).trans (nextPc_beginStep i s)

theorem step_pc_of_unrecognized (hs : RunsUnrecognized s) (h : step s = .next t) : t.pc = s.pc + 2#16 := by
  obtain ⟨i, u, hi, -, -⟩ | ⟨-, rfl⟩ := step_next_cases h
  · exact absurd hi (hs.not_runs i)
  · simp

/-- An instruction that is no jump, skip or wait goes on to the next one. -/
theorem nextPc_of_mnemonic
    (h : i.mnemonic ∉ ["JP", "CALL", "JPO", "RET", "SEI", "SNEI", "SER", "SNER", "SKP", "SKNP", "WAITK"]) :
    nextPc i s = s.pc + 2#16 := by
  cases i
  case jp | call | jpo | ret | sei | snei | ser | sner | skp | sknp | waitk => simp [Instr.mnemonic] at h
  all_goals rfl

/-- A register value of 0 to 15 names the key of that number (R206). -/
theorem keyPressed_of_val {x : Reg} {k : Fin 16} (h : (s.reg x).toNat = k.val) :
    keyPressed s x = s.keys.getLsbD k.val := by
  rw [keyPressed, h, keyDown_of_lt _ k.isLt]

/-- Settles O14: each clause is `nextPc` of its instruction. -/
theorem stepSetsThePcAsTheInstructionSays : Obligations.StepSetsThePcAsTheInstructionSays := by
  intro s t h
  refine ⟨fun _ hi => step_pc hi h, fun _ hi => step_pc hi h, fun _ hi => step_pc hi h, ?_,
    fun _ _ hi => step_pc hi h, fun _ _ hi => step_pc hi h, fun _ _ hi => step_pc hi h, fun _ _ hi => step_pc hi h,
    ?_, ?_, fun _ hi => step_pc hi h, ?_⟩
  · intro k hi hsp
    rw [step_pc hi h]
    exact nextPc_ret_of_succ (Fin.ext hsp)
  · intro x k hi hk
    rw [step_pc hi h, nextPc, keyPressed_of_val hk]
  · intro x k hi hk
    rw [step_pc hi h, nextPc, keyPressed_of_val hk]
  · intro hother
    obtain ⟨i, u, hi, -, -⟩ | ⟨hu, -⟩ := step_next_cases h
    · rw [step_pc hi h, nextPc_of_mnemonic (hother i hi)]
    · exact step_pc_of_unrecognized hu h

end Sys2Proof.Machine
end

/-! # The invariant (R25, R29, log 11) -/

section
namespace Sys2Proof.Machine

variable {i : Instr} {s t : State}

/-- The invariant speaks of `pc`, the stack and memory only. -/
theorem Inv.congr (h : Inv s) (hpc : t.pc = s.pc) (hsp : t.sp = s.sp) (hstk : t.stk = s.stk) (hmem : t.mem = s.mem) :
    Inv t where
  pc_le := hpc ▸ h.pc_le
  live_le := by rw [hsp, hstk]; exact h.live_le
  mem_wf := hmem ▸ h.mem_wf

theorem inv_resetWith (font : Font) : Inv (State.resetWith font) where
  pc_le := show (0x0200 : Word).toNat ≤ 4350 by decide
  live_le := fun k hk => absurd hk (Nat.not_lt_zero k.val)
  mem_wf := Memory.wf_empty font

/-- Settles O20: `pc` is 512, no entry is live and no cell is listed. -/
theorem invariantHoldsAtReset : Obligations.InvariantHoldsAtReset := inv_resetWith

/-! ## The three clauses through the execute phase -/

/-- From a `pc` that can be fetched from, an advance by `d` does not reach beyond `4094 + d`. -/
theorem pc_add_le {pc : Word} (h : pc.toNat ≤ 4094) (d : Word) : (pc + d).toNat ≤ 4094 + d.toNat := by
  rw [BitVec.toNat_add]
  exact (Nat.mod_le _ _).trans (Nat.add_le_add_right h _)

/-- The largest `pc` is that of a `JPO` to 4095 with 255 in `R[0]` (R25). -/
theorem nextPc_le (h : Inv s) (hpc : s.pc.toNat ≤ 4094) : (nextPc i s).toNat ≤ 4350 := by
  have hnext : (s.pc + 2#16).toNat ≤ 4096 := pc_add_le hpc 2#16
  have hskip : (s.pc + 4#16).toNat ≤ 4098 := pc_add_le hpc 4#16
  cases i
  case jp nnn | call nnn =>
    exact (addressOf_le nnn).trans (by decide)
  case jpo nnn =>
    have hbase := widen_le (s.reg 0)
    have hoffset := addressOf_le nnn
    simp only [nextPc, BitVec.toNat_add]
    omega
  case ret =>
    rcases Fin.eq_zero_or_eq_succ s.sp with h0 | ⟨k, hk⟩
    · rw [nextPc, dif_pos h0]
      exact h.pc_le
    · rw [nextPc_ret_of_succ hk]
      exact (h.live_le k (by simp [hk])).trans (by decide)
  case sei | snei | ser | sner | skp | sknp | waitk =>
    simp only [nextPc]
    split <;> omega
  all_goals exact hnext.trans (by decide)

/-- The live entries stay at most 4096: `CALL` alone adds one, the address after its own (R25, R142). -/
theorem exec_live_le (h : Inv s) (hpc : s.pc.toNat ≤ 4094) (ht : exec i s = .next t) :
    ∀ k : Fin 16, k.val < t.sp.val → t.stk[k].toNat ≤ 4096 := by
  intro j hj
  cases hw : (writesOf i s).stack with
  | false =>
    obtain ⟨hsp, hstk⟩ := (exec_frame ht).stack hw
    rw [hstk]
    exact h.live_le j (hsp ▸ hj)
  | true =>
    cases i
    case ret =>
      obtain ⟨k, hk, rfl⟩ := execRet_next ht
      exact h.live_le j (hk ▸ Nat.lt_succ_of_lt hj)
    case call nnn =>
      obtain ⟨k, hk, rfl⟩ := execCall_next ht
      by_cases hjk : j = k
      · subst hjk
        simpa using pc_add_le hpc 2#16
      · have hne : k.val ≠ j.val := fun e => hjk (Fin.ext e.symm)
        have hlt : j.val < s.sp.val := hk ▸ Nat.lt_of_le_of_ne (Nat.le_of_lt_succ hj) hne.symm
        simpa [hne] using h.live_le j hlt
    all_goals simp [writesOf] at hw

/-- Only `BCD` and `STM` write memory, and each write keeps its form. -/
theorem exec_mem_wf (h : s.mem.wf) (ht : exec i s = .next t) : t.mem.wf := by
  cases i
  case ret =>
    obtain ⟨k, -, rfl⟩ := execRet_next ht
    exact h
  case call nnn =>
    obtain ⟨k, -, rfl⟩ := execCall_next ht
    exact h
  case waitk x =>
    rcases execWaitk_next ht with ⟨-, rfl⟩ | ⟨k, -, rfl⟩
    · exact h
    · exact h
  all_goals obtain rfl := Host.Outcome.next.inj ht
  case bcd x => exact memWrite_wf (memWrite_wf (memWrite_wf h _ _) _ _) _ _
  case stm x => exact storeBlock_wf h _
  case add | sub | shr | subn | shl => rw [advance_mem]; split <;> simpa
  all_goals simpa using h

theorem exec_inv (h : Inv s) (hpc : s.pc.toNat ≤ 4094) (ht : exec i s = .next t) : Inv t where
  pc_le := exec_pc ht ▸ nextPc_le h hpc
  live_le := exec_live_le h hpc ht
  mem_wf := exec_mem_wf h.mem_wf ht

/-- Phases 2, 4 and 5 touch nothing the invariant speaks of, and the execute phase keeps it. -/
theorem step_inv (h : Inv s) (hstep : step s = .next t) : Inv t := by
  obtain ⟨i, u, hi, hu, rfl⟩ | ⟨hs, rfl⟩ := step_next_cases hstep
  · have hbegin : Inv (beginStep s) := h.congr rfl rfl rfl rfl
    exact (exec_inv hbegin hi.1 hu).congr rfl rfl rfl rfl
  · exact { pc_le := (pc_add_le hs.1 2#16).trans (by decide), live_le := h.live_le, mem_wf := h.mem_wf }

/-- Settles O21, by the execute phase's three clauses. -/
theorem everyStepKeepsTheInvariant : Obligations.EveryStepKeepsTheInvariant :=
  fun _ _ h hstep => step_inv h hstep

end Sys2Proof.Machine
end

/-! # Host transactions -/

section
namespace Sys2Proof.Machine

variable {s : State}

/-- `STEP(rnd)` leaves the state as it was, or as the step on the presented byte leaves it, the byte taken back. -/
theorem hostStep_cases (rnd : Byte) (s : State) :
    (hostStep rnd s).1 = s ∨
    ∃ t, step { s with rndIn := [rnd] } = .next t ∧ (hostStep rnd s).1 = { t with rndIn := [] } := by
  rw [hostStep]
  cases h : step { s with rndIn := [rnd] } with
  | next t => exact .inr ⟨t, rfl, rfl⟩
  | fault f => exact .inl rfl
  | refused r => exact .inl rfl

/-- `LOAD` leaves the state as it was, or writes an image that fits (R76, R77). -/
theorem transact_load_cases (image : List Byte) (s : State) :
    (transact (.load image) s).1 = s ∨
    (image.length ≤ 3584 ∧ (transact (.load image) s).1 = { s with mem := s.mem.writeBytes 512 image }) := by
  by_cases h : 3584 < image.length
  · left
    simp only [transact, hostLoad, if_pos h, raise]
  · right
    refine ⟨Nat.le_of_not_lt h, ?_⟩
    simp only [transact, hostLoad, if_neg h]

/-- A step keeps the invariant as such; the bytes of an image that fits end at 4096. -/
theorem transact_inv (tx : Transaction) (h : Inv s) : Inv (transact tx s).1 := by
  cases tx with
  | reset => exact (inv_resetWith s.mem.font).congr rfl rfl rfl rfl
  | load image =>
    rcases transact_load_cases image s with he | ⟨hlen, he⟩
    · rwa [he]
    · rw [he]
      exact { pc_le := h.pc_le, live_le := h.live_le, mem_wf := Memory.wf_writeBytes image h.mem_wf (by omega) }
  | key k down => exact h.congr rfl rfl rfl rfl
  | step rnd =>
    rcases hostStep_cases rnd s with he | ⟨t, ht, he⟩
    · rwa [transact, he]
    · have hpresented : Inv { s with rndIn := [rnd] } := h.congr rfl rfl rfl rfl
      rw [transact, he]
      exact (step_inv hpresented ht).congr rfl rfl rfl rfl
  | readScreen => exact h

/-- Settles O22, by cases on the transaction. -/
theorem everyTransactionKeepsTheInvariant : Obligations.EveryTransactionKeepsTheInvariant :=
  fun tx _ h => transact_inv tx h

theorem Reachable.inv (h : Reachable s) : Inv s := by
  induction h with
  | reset font => exact inv_resetWith font
  | transact tx s _ ih => exact transact_inv tx ih

/-- Settles O23, by induction on the transactions that lead to the state. -/
theorem reachableStatesMeetTheInvariant : Obligations.ReachableStatesMeetTheInvariant :=
  fun s h => ⟨h.inv.pc_le, Nat.lt_succ_iff.mp s.sp.isLt, h.inv⟩

/-! ## The key mask (R31) -/

theorem step_keys {t : State} (h : step s = .next t) : t.keys = s.keys := by
  obtain ⟨i, u, -, hu, rfl⟩ | ⟨-, rfl⟩ := step_next_cases h
  · exact (exec_frame hu).keys
  · rfl

theorem transact_keys {tx : Transaction} (hreset : tx ≠ .reset) (hkey : ∀ k down, tx ≠ .key k down) :
    (transact tx s).1.keys = s.keys := by
  cases tx with
  | reset => exact absurd rfl hreset
  | load image =>
    rcases transact_load_cases image s with he | ⟨-, he⟩
    · rw [he]
    · rw [he]
  | key k down => exact absurd rfl (hkey k down)
  | step rnd =>
    rcases hostStep_cases rnd s with he | ⟨t, ht, he⟩
    · rw [transact, he]
    · have hkeys := step_keys ht
      rw [transact, he]
      exact hkeys
  | readScreen => rfl

/-- Settles O26: a step by the frame of its instruction, a transaction by what it does to the state. -/
theorem keyMaskIsWrittenByTheHostOnly : Obligations.KeyMaskIsWrittenByTheHostOnly :=
  ⟨fun _ _ h => step_keys h, fun _ _ hreset hkey => transact_keys hreset hkey,
    fun s k j down => ⟨hostKey_getLsbD s k j down, rfl⟩, fun _ => rfl, fun _ => rfl⟩

/-! ## `RESET` (R37) -/

/-- Settles O27: every item is read off `State.resetWith`, a byte by whether its address is in the font region. -/
theorem resetSetsEveryItem : Obligations.ResetSetsEveryItem := by
  refine ⟨fun font => ⟨fun r => ?_, rfl, rfl, rfl, rfl, rfl, rfl, fun r c => pixel_blankScreen r c, ?_, ?_⟩,
    fun _ => rfl⟩
  · simp [State.reg, State.resetWith]
  · intro a ha
    exact dif_pos ha
  · intro a ha
    exact dif_neg (Nat.not_lt.mpr ha)

end Sys2Proof.Machine
end

/-! # What no step can observe: dead stack slots (R29) and the latest output (R34) -/

section
namespace Sys2Proof.Machine

variable {i : Instr} {s t : State}

/-- Settles O16: a step begins by clearing the output, and its fetch reads `pc` and memory only. -/
theorem effectFlagsAreNotRemembered : Obligations.EffectFlagsAreNotRemembered := by
  intro s o
  have hfetch : fetch { s with out := o } = fetch s := rfl
  have hbegin : beginStep { s with out := o } = beginStep s := rfl
  rw [step, step, hfetch, hbegin]

/-- `STK <- k`, `SP` as it is: the states that `SameLive` compares differ in this way. -/
def replaceStk (s : State) (k : Vector Word 16) : State := { s with stk := k }

/-- `SameLive` as a replacement of the slots: the form in which meanings are compared. -/
theorem sameLive_iff :
    SameLive s t ↔ ∃ k : Vector Word 16, t = replaceStk s k ∧ ∀ j : Fin 16, j.val < s.sp.val → k[j] = s.stk[j] := by
  constructor
  · rintro ⟨hs, hlive⟩
    exact ⟨t.stk, by rw [← hs]; rfl, hlive⟩
  · rintro ⟨k, rfl, hlive⟩
    exact ⟨rfl, hlive⟩

/-! ## The shared operations do not read the slots -/

section
variable (s : State) (k : Vector Word 16)

theorem skipIf_replaceStk (b : Bool) : skipIf (replaceStk s k) b = replaceStk (skipIf s b) k := by
  cases b <;> rfl

theorem writeUnspecified_replaceStk (x : Reg) :
    writeUnspecified (replaceStk s k) x = replaceStk (writeUnspecified s x) k := by
  by_cases hx : x = rf
  · subst hx; rfl
  · rw [writeUnspecified_ne _ hx, writeUnspecified_ne _ hx]; rfl

theorem flaggedOp_replaceStk {t : State} {x : Reg} {b : Bool} {v : Byte} {f : Bool}
    (h : flaggedOp s x b v f = .next t) : flaggedOp (replaceStk s k) x b v f = .next (replaceStk t k) := by
  obtain rfl := Host.Outcome.next.inj h
  cases b
  · rfl
  · rw [flaggedOp_eq, if_pos rfl, writeUnspecified_replaceStk]
    rfl

theorem takeRandom_replaceStk :
    takeRandom (replaceStk s k) = ((takeRandom s).1, replaceStk (takeRandom s).2 k) := by
  cases h : s.rndIn with
  | nil => rw [takeRandom_of_nil h, takeRandom_of_nil (s := replaceStk s k) h]; rfl
  | cons b rest => rw [takeRandom_of_cons h, takeRandom_of_cons (s := replaceStk s k) h]; rfl

theorem storeBlock_replaceStk (n : Nat) : storeBlock (replaceStk s k) n = replaceStk (storeBlock s n) k := by
  induction n with
  | zero => rfl
  | succ n ih => rw [storeBlock, ih]; rfl

theorem loadBlock_replaceStk (n : Nat) : loadBlock (replaceStk s k) n = replaceStk (loadBlock s n) k := by
  induction n with
  | zero => rfl
  | succ n ih => rw [loadBlock, ih]; rfl

theorem drawRows_replaceStk (vx vy : Byte) (n : Nat) :
    drawRows (replaceStk s k) vx vy n = drawRows s vx vy n := by
  induction n with
  | zero => rfl
  | succ n ih => rw [drawRows, ih]; rfl

end

/-- An instruction other than `CALL` and `RET` neither reads nor writes a slot. -/
theorem exec_replaceStk (hi : (writesOf i s).stack = false) (h : exec i s = .next t) (k : Vector Word 16) :
    exec i (replaceStk s k) = .next (replaceStk t k) := by
  cases i
  case ret | call => simp [writesOf] at hi
  case waitk x =>
    rcases execWaitk_next h with ⟨hk, rfl⟩ | ⟨j, hk, rfl⟩
    · exact execWaitk_of_none (s := replaceStk _ k) hk
    · exact execWaitk_of_some (s := replaceStk s k) hk
  case add | sub | shr | subn | shl => exact flaggedOp_replaceStk s k h
  all_goals obtain rfl := Host.Outcome.next.inj h
  case sei | snei | ser | sner | skp | sknp => exact congrArg _ (skipIf_replaceStk s k _)
  case rnd x kk => simp only [exec, execRnd, takeRandom_replaceStk]; rfl
  case drw x y n => simp only [exec, execDrw, drawRows_replaceStk]; rfl
  case stm x => simp only [exec, execStm, storeBlock_replaceStk]; rfl
  case ldm x => simp only [exec, execLdm, loadBlock_replaceStk]; rfl
  all_goals rfl

/-- `RET` reads the newest live entry, which both states hold. -/
theorem execRet_sameLive (h : SameLive s t) : SameLiveAnswer (execRet s) (execRet t) := by
  obtain ⟨k, rfl, hlive⟩ := sameLive_iff.mp h
  rcases Fin.eq_zero_or_eq_succ s.sp with h0 | ⟨j, hj⟩
  · rw [execRet_of_empty h0, execRet_of_empty (s := replaceStk s k) h0]
    rfl
  · have htop : (replaceStk s k).stk[j] = s.stk[j] := hlive j (by simp [hj])
    rw [execRet_of_succ hj, execRet_of_succ (s := replaceStk s k) hj]
    exact sameLive_iff.mpr ⟨k, by rw [htop]; rfl, fun l hl => hlive l (hj ▸ Nat.lt_succ_of_lt hl)⟩

/-- `CALL` makes one slot live, and writes it. -/
theorem execCall_sameLive (nnn : Addr12) (h : SameLive s t) :
    SameLiveAnswer (execCall nnn s) (execCall nnn t) := by
  obtain ⟨k, rfl, hlive⟩ := sameLive_iff.mp h
  rcases Fin.eq_castSucc_or_eq_last s.sp with ⟨j, hj⟩ | h16
  · rw [execCall_of_castSucc nnn hj, execCall_of_castSucc (s := replaceStk s k) nnn hj]
    refine sameLive_iff.mpr ⟨k.set j (s.pc + 2#16), rfl, fun l hl => ?_⟩
    by_cases hlj : l = j
    · subst hlj
      simp
    · have hne : j.val ≠ l.val := fun e => hlj (Fin.ext e.symm)
      have hlt : l.val < s.sp.val := hj ▸ Nat.lt_of_le_of_ne (Nat.le_of_lt_succ hl) hne.symm
      simpa [hne] using hlive l hlt
  · rw [execCall_of_full nnn h16, execCall_of_full (s := replaceStk s k) nnn h16]
    rfl

theorem exec_sameLive (i : Instr) (h : SameLive s t) : SameLiveAnswer (exec i s) (exec i t) := by
  cases hw : (writesOf i s).stack with
  | false =>
    obtain ⟨k, rfl, hlive⟩ := sameLive_iff.mp h
    obtain ⟨u, hu⟩ | ⟨nnn, rfl, -⟩ | ⟨rfl, -⟩ := exec_cases i s
    · obtain ⟨hsp, hstk⟩ := (exec_frame hu).stack hw
      rw [hu, exec_replaceStk hw hu k]
      exact sameLive_iff.mpr ⟨k, rfl, by rwa [hsp, hstk]⟩
    · simp [writesOf] at hw
    · simp [writesOf] at hw
  | true =>
    cases i
    case ret => exact execRet_sameLive h
    case call nnn => exact execCall_sameLive nnn h
    all_goals simp [writesOf] at hw

/-! ## The phases of a step do not read the slots -/

theorem finishStep_sameLive {a b : Answer} (h : SameLiveAnswer a b) :
    SameLiveAnswer (finishStep a) (finishStep b) := by
  cases a with
  | next u =>
    cases b with
    | next v =>
      obtain ⟨k, rfl, hlive⟩ := sameLive_iff.mp h
      exact sameLive_iff.mpr ⟨k, rfl, hlive⟩
    | fault g => exact h.elim
    | refused q => exact h.elim
  | fault f => cases b <;> exact h
  | refused r => cases b <;> exact h

theorem beginStep_sameLive (h : SameLive s t) : SameLive (beginStep s) (beginStep t) := by
  obtain ⟨k, rfl, hlive⟩ := sameLive_iff.mp h
  exact sameLive_iff.mpr ⟨k, rfl, hlive⟩

theorem execUnrecognized_sameLive (w : Word) (h : SameLive s t) :
    SameLiveAnswer (execUnrecognized w s) (execUnrecognized w t) := by
  obtain ⟨k, rfl, hlive⟩ := sameLive_iff.mp h
  exact sameLive_iff.mpr ⟨k, rfl, hlive⟩

theorem fetch_sameLive (h : SameLive s t) : fetch t = fetch s := by
  obtain ⟨k, rfl, -⟩ := sameLive_iff.mp h
  rfl

/-- Settles O17: fetch and the phases around execution do not look at the slots, and every instruction keeps two states
that agree on the live ones in agreement. -/
theorem deadStackSlotsAreUnobservable : Obligations.DeadStackSlotsAreUnobservable := by
  intro s t h
  have hbegin := beginStep_sameLive h
  rw [step, step, fetch_sameLive h]
  cases fetch s with
  | error f => rfl
  | ok w =>
    cases hw : decodeWord w with
    | none => simpa only [hw] using finishStep_sameLive (execUnrecognized_sameLive w hbegin)
    | some i => simpa only [hw] using finishStep_sameLive (exec_sameLive i hbegin)

end Sys2Proof.Machine
end

/-! # Memory family: the fetched word and placing an instruction (R64, R74, R121) -/

section
namespace Sys2Proof

/-- A word is its own 16 low bits: what the opcode table's numbering makes of a word's number is the word. -/
@[simp] theorem wordOfTableBits_toNat (w : Word) : wordOfTableBits 16 w.toNat = w := by
  rw [wordOfTableBits, Nat.mod_eq_of_lt w.isLt, BitVec.ofNat_toNat, BitVec.setWidth_eq]

/-- Decoding the word of an instruction gives the instruction back (R92): the family and sub-opcode of a packed word
select its row, and its operand fields are the operands. -/
theorem decodeWord_encode (i : Instr) : decodeWord (encode i) = some i := by
  cases i
  case cls | ret => decide
  case mov | or | and | xor | add | sub | shr | subn | shl => simp [encode, decodeWord, decodeFamily8]
  case skp | sknp => simp [encode, decodeWord, decodeFamilyE]
  case lddt | waitk | stdt | stst | addx | font | bcd | stm | ldm => simp [encode, decodeWord, decodeFamilyF]
  case drw x y n => simpa [encode, decodeWord] using nOf_packXYN 0xD x y n
  all_goals simp [encode, decodeWord]

end Sys2Proof

namespace Sys2Proof.Machine

variable {s : State}

/-- Settles O10: the fetch forms the word of the two bytes, and `wordOfBytes` is that word as a number. -/
theorem fetchedWordIsBigEndian : Obligations.FetchedWordIsBigEndian :=
  fun _ h => ⟨_, fetch_of_le h, wordOfBytes_toNat _ _⟩

/-- Where a word can be fetched from, placing one changes memory alone. -/
theorem withFetchWord_of_le (h : s.pc.toNat ≤ 4094) (w : Word) :
    s.withFetchWord 16 w.toNat = { s with mem := s.mem.writeWord s.pc.toNat w } := by
  rw [State.withFetchWord, if_neg (Nat.not_lt.mpr h), wordOfTableBits_toNat]

/-- A placed instruction is the one that the next step runs. -/
theorem runs_withFetchWord_encode (h : s.pc.toNat ≤ 4094) (i : Instr) :
    Runs (s.withFetchWord 16 (encode i).toNat) i := by
  rw [withFetchWord_of_le h]
  refine ⟨h, ?_⟩
  rw [wordAt_writeWord, decodeWord_encode]

/-- Settles O7: the step runs the instruction that it fetches, and the two stores of the placing leave the rest. -/
theorem placedInstructionIsTheOneTheStepRuns : Obligations.PlacedInstructionIsTheOneTheStepRuns := by
  intro s i h
  have hruns := runs_withFetchWord_encode h i
  refine ⟨hruns, step_of_instr hruns, ?_, fun a hhigh hlow => ?_⟩
  · rw [withFetchWord_of_le h]
  · rw [withFetchWord_of_le h]
    exact read_writeWord_ne s.mem _ hhigh hlow

/-! ## A word stored over the next instruction (R74) -/

/-- A completed `STM` leaves register `k` at `(I + k) mod 4096`, for every `k` up to `x` (R184). -/
theorem step_stm_read {t : State} {x k : Reg} (hs : Runs s (.stm x)) (h : step s = .next t) (hk : k ≤ x) :
    t.mem.read (effAddr s k.val) = s.reg k := by
  rw [step_of_instr hs] at h
  obtain ⟨u, hu, rfl⟩ := finishStep_next h
  obtain rfl := Host.Outcome.next.inj hu
  have hblock := storeBlock_read (beginStep s) x.isLt k.val (Nat.lt_succ_of_le hk)
  rwa [regNo_val] at hblock

/-- Settles O29: both bytes of the word lie in the stored block, and the fetch takes the first as the high byte. -/
theorem storedWordIsFetchedByTheNextStep : Obligations.StoredWordIsFetchedByTheNextStep := by
  intro s t x p q hs h hpq hqx hpaddr hqaddr
  have hpx : p ≤ x := Fin.le_def.mpr (by have := Fin.le_def.mp hqx; omega)
  have hlast := effAddr_lt s q.val
  have hnext : t.pc = s.pc + 2#16 := step_pc hs h
  have hpc : t.pc.toNat = s.pc.toNat + 2 := by
    rw [hnext, BitVec.toNat_add, BitVec.toNat_ofNat]
    omega
  refine ⟨_, fetch_of_le (show t.pc.toNat ≤ 4094 by omega), ?_⟩
  rw [wordAt, wordOfBytes_toNat, hpc, ← step_stm_read hs h hpx, ← step_stm_read hs h hqx, hpaddr, hqaddr]

end Sys2Proof.Machine
end

/-! # Memory family: the canonical form (R60, R69, log 11) -/

section
namespace Sys2Proof.Machine

/-- In a list of rising addresses a lookup finds exactly the entries. -/
theorem lookupCell_eq_some_iff {cells : List Host.Cell} (h : cells.Pairwise (fun p q => p.1 < q.1)) (a : Nat)
    (v : Byte) : lookupCell cells a = some v ↔ (a, v) ∈ cells := by
  induction cells with
  | nil => simp [lookupCell]
  | cons c rest ih =>
    obtain ⟨hc, hrest⟩ := List.pairwise_cons.mp h
    rw [lookupCell, List.mem_cons]
    by_cases hca : c.1 = a
    · have hnot : (a, v) ∉ rest := fun hm => absurd (hc _ hm) (by simp [hca])
      subst hca
      simp [hnot, Prod.ext_iff, eq_comm]
    · rw [if_neg hca, ih hrest]
      have hne : (a, v) ≠ c := fun e => hca (by rw [← e])
      simp [hne]

/-- The entries of a canonical memory are the addresses whose byte is not the reset contents, with that byte: the
list is determined by what the memory reads. -/
theorem Memory.mem_cells_iff {m : Memory} (h : m.wf) (c : Host.Cell) :
    c ∈ m.cells ↔ m.read c.1 = c.2 ∧ c.2 ≠ baseByte m.font c.1 := by
  obtain ⟨hsorted, hcells⟩ := h
  rw [Memory.read]
  cases hl : lookupCell m.cells c.1 with
  | none =>
    have hnot : c ∉ m.cells := fun hm => by simp [(lookupCell_eq_some_iff hsorted _ _).mpr hm] at hl
    simp only [hnot, Option.getD_none, false_iff, not_and, not_not]
    exact Eq.symm
  | some v =>
    have hv := (lookupCell_eq_some_iff hsorted _ _).mp hl
    constructor
    · intro hm
      refine ⟨?_, (hcells c hm).2⟩
      simpa [hl] using (lookupCell_eq_some_iff hsorted c.1 c.2).mpr hm
    · rintro ⟨rfl, -⟩
      exact hv

/-- Lists of rising addresses with the same entries are the same list. -/
theorem cells_ext {l k : List Host.Cell} (hl : l.Pairwise (fun p q => p.1 < q.1))
    (hk : k.Pairwise (fun p q => p.1 < q.1)) (h : ∀ c, c ∈ l ↔ c ∈ k) : l = k :=
  have : Std.Antisymm (fun p q : Host.Cell => p.1 < q.1) := ⟨fun _ _ hpq hqp => absurd hqp hpq.asymm⟩
  have : Std.Irrefl (fun p q : Host.Cell => p.1 < q.1) := ⟨fun p => Nat.lt_irrefl p.1⟩
  hl.eq_of_mem_iff hk h

/-- Settles O24: the entries of a canonical memory are determined by what it reads. -/
theorem canonicalMemoriesThatReadAlikeAreEqual : Obligations.CanonicalMemoriesThatReadAlikeAreEqual := by
  intro m n hm hn hfont hread
  have hcells : m.cells = n.cells := cells_ext hm.1 hn.1 fun c => by
    rw [Memory.mem_cells_iff hm, Memory.mem_cells_iff hn, hread, hfont]
  exact congrArg₂ Memory.mk hfont hcells

/-! ## `LOAD` (R76, R77) -/

/-- A `LOAD` of an image that fits changes memory alone (R76). -/
theorem hostLoad_of_le {image : List Byte} (h : image.length ≤ 3584) (s : State) :
    hostLoad image s = .next { s with mem := s.mem.writeBytes 512 image } := if_neg (Nat.not_lt.mpr h)

/-- A `LOAD` of a longer image fails (R77). -/
theorem hostLoad_of_gt {image : List Byte} (h : 3584 < image.length) (s : State) :
    hostLoad image s = .fault (.imageTooLarge image.length) := if_pos h

/-- Settles O28: the image is written byte by byte from 512 on, or the load fails and its state is dropped. -/
theorem loadWritesTheImageOrRejectsItWhole : Obligations.LoadWritesTheImageOrRejectsItWhole := by
  intro image s
  refine ⟨fun hle => ⟨_, hostLoad_of_le hle s, rfl, Memory.writeBytes_font _ _ _, fun k hk => ?_, fun a ha => ?_⟩,
    fun hgt => ?_⟩
  · simp [Memory.read_writeBytes, hk]
  · rw [Memory.read_writeBytes, dif_neg (by omega)]
  · rw [transact, hostLoad_of_gt hgt]

end Sys2Proof.Machine
end

/-! # Memory family: who writes memory and who reads it (R79) -/

section
namespace Sys2Proof.Machine

variable {i : Instr} {s t : State}

/-! ## Writers -/

/-- Only the rows of `BCD` and `STM` name addresses of memory. -/
theorem writesOf_mem_eq_false (hbcd : ∀ x, i ≠ .bcd x) (hstm : ∀ x, i ≠ .stm x) (s : State) (a : Nat) :
    (writesOf i s).mem a = false := by
  cases i
  case bcd x => exact absurd rfl (hbcd x)
  case stm x => exact absurd rfl (hstm x)
  all_goals rfl

/-- A step that changes a byte of memory ran `BCD` or `STM`. -/
theorem step_mem_changed {a : Nat} (h : step s = .next t) (ha : t.mem.read a ≠ s.mem.read a) :
    ∃ x, Runs s (.bcd x) ∨ Runs s (.stm x) := by
  obtain ⟨i, u, hi, hu, rfl⟩ | ⟨-, rfl⟩ := step_next_cases h
  · by_contra hno
    push Not at hno
    have hbcd : ∀ x, i ≠ .bcd x := fun x e => (hno x).1 (e ▸ hi)
    have hstm : ∀ x, i ≠ .stm x := fun x e => (hno x).2 (e ▸ hi)
    exact ha ((exec_frame hu).mem a (writesOf_mem_eq_false hbcd hstm _ a))
  · exact absurd rfl ha

/-- A transaction that changes a byte of memory is one of the listed writers (R79). -/
theorem transact_mem_changed (tx : Transaction) {a : Nat} (ha : (transact tx s).1.mem.read a ≠ s.mem.read a) :
    tx = .reset ∨ (∃ image, tx = .load image) ∨ ∃ rnd x, tx = .step rnd ∧ (Runs s (.bcd x) ∨ Runs s (.stm x)) := by
  cases tx with
  | reset => exact .inl rfl
  | load image => exact .inr (.inl ⟨image, rfl⟩)
  | key k down => exact absurd rfl ha
  | readScreen => exact absurd rfl ha
  | step rnd =>
    rw [transact] at ha
    rcases hostStep_cases rnd s with he | ⟨t, ht, he⟩
    · exact absurd (by rw [he]) ha
    · rw [he] at ha
      obtain ⟨x, hx⟩ := step_mem_changed ht ha
      exact .inr (.inr ⟨rnd, x, rfl, hx⟩)

/-! ## Readers

The execute phase on a state with another memory in place of its own, as for the dead stack slots above. -/

/-- `M <- m` -/
def replaceMem (s : State) (m : Memory) : State := { s with mem := m }

section
variable (s : State) (m : Memory)

theorem skipIf_replaceMem (b : Bool) : skipIf (replaceMem s m) b = replaceMem (skipIf s b) m := by cases b <;> rfl

theorem writeUnspecified_replaceMem (x : Reg) :
    writeUnspecified (replaceMem s m) x = replaceMem (writeUnspecified s x) m := by
  by_cases hx : x = rf
  · subst hx; rfl
  · rw [writeUnspecified_ne _ hx, writeUnspecified_ne _ hx]; rfl

theorem flaggedOp_replaceMem {t : State} {x : Reg} {b : Bool} {v : Byte} {f : Bool}
    (h : flaggedOp s x b v f = .next t) : flaggedOp (replaceMem s m) x b v f = .next (replaceMem t m) := by
  obtain rfl := Host.Outcome.next.inj h
  cases b
  · rfl
  · rw [flaggedOp_eq, if_pos rfl, writeUnspecified_replaceMem]
    rfl

theorem takeRandom_replaceMem :
    takeRandom (replaceMem s m) = ((takeRandom s).1, replaceMem (takeRandom s).2 m) := by
  cases h : s.rndIn with
  | nil => rw [takeRandom_of_nil h, takeRandom_of_nil (s := replaceMem s m) h]; rfl
  | cons b rest => rw [takeRandom_of_cons h, takeRandom_of_cons (s := replaceMem s m) h]; rfl

end

/-- A stored block changes memory only, so over another memory it leaves the same state but for memory. -/
theorem storeBlock_replaceMem (s : State) (m : Memory) (n : Nat) :
    storeBlock (replaceMem s m) n = replaceMem (storeBlock s n) (storeBlock (replaceMem s m) n).mem := by
  rw [storeBlock_eq (replaceMem s m), storeBlock_eq s]
  rfl

/-- The instructions that R79 lists, as a reader (`DRW`, `LDM`) or as a writer (`BCD`, `STM`). -/
def accessesMemory : Instr → Bool
  | .drw _ _ _ | .ldm _ | .bcd _ | .stm _ => true
  | _ => false

/-- An instruction that accesses no memory answers the same over any memory, and leaves it as it is. -/
theorem exec_replaceMem (hi : accessesMemory i = false) (h : exec i s = .next t) (m : Memory) :
    exec i (replaceMem s m) = .next (replaceMem t m) := by
  cases i
  case drw | ldm | bcd | stm => simp [accessesMemory] at hi
  case ret =>
    obtain ⟨k, hk, rfl⟩ := execRet_next h
    exact execRet_of_succ (s := replaceMem s m) hk
  case call nnn =>
    obtain ⟨k, hk, rfl⟩ := execCall_next h
    exact execCall_of_castSucc (s := replaceMem s m) nnn hk
  case waitk x =>
    rcases execWaitk_next h with ⟨hk, rfl⟩ | ⟨j, hk, rfl⟩
    · exact execWaitk_of_none (s := replaceMem _ m) hk
    · exact execWaitk_of_some (s := replaceMem s m) hk
  case add | sub | shr | subn | shl => exact flaggedOp_replaceMem s m h
  all_goals obtain rfl := Host.Outcome.next.inj h
  case sei | snei | ser | sner | skp | sknp => exact congrArg _ (skipIf_replaceMem s m _)
  case rnd x kk => simp only [exec, execRnd, takeRandom_replaceMem]; rfl
  all_goals rfl

/-- One byte stored over two memories: an address has the same byte in both, or in both the byte it had. -/
theorem Memory.read_write_agree {m n : Memory} {a : Nat} {old old' : Byte}
    (h : m.read a = n.read a ∨ (m.read a = old ∧ n.read a = old')) (b : Nat) (v : Byte) :
    (m.write b v).read a = (n.write b v).read a ∨
      ((m.write b v).read a = old ∧ (n.write b v).read a = old') := by
  by_cases hab : a = b
  · subst hab
    exact .inl (by rw [read_write_same, read_write_same])
  · rwa [read_write_ne _ _ hab, read_write_ne _ _ hab]

/-- Settles O25: the writers by the frame of the instruction a step ran; the readers by running the instruction over
the other memory, `BCD` and `STM` byte by byte. -/
theorem memoryHasTheListedWritersAndReaders : Obligations.MemoryHasTheListedWritersAndReaders := by
  refine ⟨fun tx s a ha => transact_mem_changed tx ha, fun i s t m h hdrw hldm => ?_⟩
  cases hi : accessesMemory i with
  | false =>
    have hbcd : ∀ x, i ≠ .bcd x := fun x e => by simp [e, accessesMemory] at hi
    have hstm : ∀ x, i ≠ .stm x := fun x e => by simp [e, accessesMemory] at hi
    exact ⟨replaceMem t m, exec_replaceMem hi h m, rfl, rfl, fun a =>
      .inr ⟨rfl, (exec_frame h).mem a (writesOf_mem_eq_false hbcd hstm s a)⟩⟩
  | true =>
    cases i
    case drw x y n => exact absurd rfl (hdrw x y n)
    case ldm x => exact absurd rfl (hldm x)
    case bcd x =>
      obtain rfl := Host.Outcome.next.inj h
      have hbefore : ∀ a, m.read a = s.mem.read a ∨ (m.read a = m.read a ∧ s.mem.read a = s.mem.read a) :=
        fun a => .inr ⟨rfl, rfl⟩
      exact ⟨_, rfl, rfl, rfl, fun a => Memory.read_write_agree
        (Memory.read_write_agree (Memory.read_write_agree (hbefore a) _ _) _ _) _ _⟩
    case stm x =>
      obtain rfl := Host.Outcome.next.inj h
      refine ⟨advance (storeBlock (replaceMem s m) (x.val + 1)), rfl, ?_, storeBlock_font (replaceMem s m) _,
        storeBlock_read_agree s m x.isLt⟩
      rw [storeBlock_replaceMem]
      rfl
    all_goals simp [accessesMemory] at hi

end Sys2Proof.Machine
end

/-! # Encoding family: decode of encode, on words and on bytes (R90, R92, R93) -/

section
namespace Sys2Proof

/-- Settles O1: each word is a closed term, and the decoder computes. -/
theorem sampleWordsDecodeToTheirInstructions : Obligations.SampleWordsDecodeToTheirInstructions := by
  unfold Obligations.SampleWordsDecodeToTheirInstructions
  decide

/-- The decoder on bytes reads the word that the first two form, high byte first, and leaves the rest (R90). -/
theorem decode_bytes_of_decodeWord {w : Word} {i : Instr} (h : decodeWord w = some i) (rest : List Byte) :
    decode (highByte w :: lowByte w :: rest) = .ok (i, rest) := by
  simp only [decode, Machine.wordOfBytes_high_low, h]

/-- Settles O2: the word decodes to its instruction, and the bytes form the word. -/
theorem encodedInstructionDecodesToItself : Obligations.EncodedInstructionDecodesToItself :=
  fun i rest => ⟨decodeWord_encode i, decode_bytes_of_decodeWord (decodeWord_encode i) rest⟩

end Sys2Proof
end

/-! # Encoding family: encode of decode (R91, R92) -/

section
namespace Sys2Proof

variable {w : Word} {i : Instr} {f : Nibble}

/-! ## A word with a known family, and sub-opcode where its format has one -/

theorem packA_nnnOf (hf : (famOf w).toNat = f.toNat) : packA f (nnnOf w) = w := by
  rw [← BitVec.eq_of_toNat_eq hf, packA_fields]

theorem packXK_xOf_kkOf (hf : (famOf w).toNat = f.toNat) : packXK f (xOf w) (kkOf w) = w := by
  rw [← BitVec.eq_of_toNat_eq hf, packXK_fields]

theorem packXK_xOf {kk : Byte} (hf : (famOf w).toNat = f.toNat) (hkk : (kkOf w).toNat = kk.toNat) :
    packXK f (xOf w) kk = w := by
  rw [← BitVec.eq_of_toNat_eq hkk, packXK_xOf_kkOf hf]

theorem packXYN_xOf_yOf {n : Nibble} (hf : (famOf w).toNat = f.toNat) (hn : (nBits w).toNat = n.toNat) :
    packXYN f (xOf w) (yOf w) n = w := by
  rw [← BitVec.eq_of_toNat_eq hf, ← BitVec.eq_of_toNat_eq hn, packXYN_fields]

theorem packXYN_xOf_yOf_nOf (hf : (famOf w).toNat = f.toNat) :
    packXYN f (xOf w) (yOf w) (BitVec.ofNat 4 (nOf w).val) = w :=
  packXYN_xOf_yOf hf (by rw [nOf, BitVec.ofNat_toNat, BitVec.setWidth_eq])

/-! ## Family by family

The alternatives of `split` are those of the definition, in its order: family `f` of `decodeWord` is `h_(f + 1)`, and
the last alternative is the one that answers `none`. -/

theorem encode_of_decodeFamily0 (h : decodeFamily0 w = some i) : encode i = w := by
  unfold decodeFamily0 at h
  split at h
  case h_3 => cases h
  all_goals
    rename_i hw
    obtain rfl := Option.some.inj h
    exact (BitVec.eq_of_toNat_eq hw).symm

theorem encode_of_decodeFamily8 (hf : (famOf w).toNat = 0x8) (h : decodeFamily8 w = some i) : encode i = w := by
  unfold decodeFamily8 at h
  split at h
  case h_10 => cases h
  all_goals
    rename_i hn
    obtain rfl := Option.some.inj h
    exact packXYN_xOf_yOf hf hn

theorem encode_of_decodeFamilyE (hf : (famOf w).toNat = 0xE) (h : decodeFamilyE w = some i) : encode i = w := by
  unfold decodeFamilyE at h
  split at h
  case h_3 => cases h
  all_goals
    rename_i hkk
    obtain rfl := Option.some.inj h
    exact packXK_xOf hf hkk

theorem encode_of_decodeFamilyF (hf : (famOf w).toNat = 0xF) (h : decodeFamilyF w = some i) : encode i = w := by
  unfold decodeFamilyF at h
  split at h
  case h_10 => cases h
  all_goals
    rename_i hkk
    obtain rfl := Option.some.inj h
    exact packXK_xOf hf hkk

/-- Settles O3: the family, the sub-opcode and the operands that the decoder reads are all the bits of the word. -/
theorem decodedWordIsTheEncodingOfItsInstruction : Obligations.DecodedWordIsTheEncodingOfItsInstruction := by
  intro w i h
  unfold decodeWord at h
  split at h
  case h_1 => exact encode_of_decodeFamily0 h
  case h_9 hf => exact encode_of_decodeFamily8 hf h
  case h_15 hf => exact encode_of_decodeFamilyE hf h
  case h_16 hf => exact encode_of_decodeFamilyF hf h
  case h_17 => cases h
  case h_6 hf | h_10 hf =>
    obtain ⟨hn, hi⟩ := Option.ite_none_right_eq_some.mp h
    obtain rfl := Option.some.inj hi
    exact packXYN_xOf_yOf hf (congrArg BitVec.toNat hn)
  all_goals
    rename_i hf
    obtain rfl := Option.some.inj h
  case h_14 => exact packXYN_xOf_yOf_nOf hf
  case h_2 | h_3 | h_11 | h_12 => exact packA_nnnOf hf
  case h_4 | h_5 | h_7 | h_8 | h_13 => exact packXK_xOf_kkOf hf

end Sys2Proof
end

/-! # Encoding family: the gaps of the opcode map (R95 to R101) -/

section
namespace Sys2Proof

variable {w : Word}

theorem decodeFamily0_eq_none : decodeFamily0 w = none ↔ w.toNat ≠ 0x00E0 ∧ w.toNat ≠ 0x00EE := by
  unfold decodeFamily0
  split <;> simp_all

theorem decodeFamily8_eq_none :
    decodeFamily8 w = none ↔ 8 ≤ (nBits w).toNat ∧ (nBits w).toNat ≠ 0xE := by
  unfold decodeFamily8
  split
  case h_10 =>
    simp only [imp_false, true_iff] at *
    have := (nBits w).isLt
    omega
  all_goals simp_all

theorem decodeFamilyE_eq_none : decodeFamilyE w = none ↔ (kkOf w).toNat ∉ [0x9E, 0xA1] := by
  unfold decodeFamilyE
  split <;> simp_all

theorem decodeFamilyF_eq_none :
    decodeFamilyF w = none ↔ (kkOf w).toNat ∉ [0x07, 0x0A, 0x15, 0x18, 0x1E, 0x29, 0x33, 0x55, 0x65] := by
  unfold decodeFamilyF
  split <;> simp_all

/-- The gaps by the fields that the decoder compares: only these six families have any (R101). -/
theorem decodeWord_eq_none_iff : decodeWord w = none ↔
    ((famOf w).toNat = 0x0 ∧ w.toNat ≠ 0x00E0 ∧ w.toNat ≠ 0x00EE) ∨
    ((famOf w).toNat = 0x5 ∧ (nBits w).toNat ≠ 0) ∨
    ((famOf w).toNat = 0x8 ∧ 8 ≤ (nBits w).toNat ∧ (nBits w).toNat ≠ 0xE) ∨
    ((famOf w).toNat = 0x9 ∧ (nBits w).toNat ≠ 0) ∨
    ((famOf w).toNat = 0xE ∧ (kkOf w).toNat ∉ [0x9E, 0xA1]) ∨
    ((famOf w).toNat = 0xF ∧ (kkOf w).toNat ∉ [0x07, 0x0A, 0x15, 0x18, 0x1E, 0x29, 0x33, 0x55, 0x65]) := by
  unfold decodeWord
  split
  case h_1 hf => simp [hf, decodeFamily0_eq_none]
  case h_9 hf => simp [hf, decodeFamily8_eq_none]
  case h_15 hf => simp [hf, decodeFamilyE_eq_none]
  case h_16 hf => simp [hf, decodeFamilyF_eq_none]
  case h_6 hf | h_10 hf => simp [hf, ← BitVec.toNat_inj]
  case h_17 =>
    exfalso
    simp only [imp_false] at *
    have := (famOf w).isLt
    omega
  all_goals
    rename_i hf
    simp [hf]

/-- Settles O5: the fields that the decoder compares are the digits of the word's number. -/
theorem unrecognizedWordsAreTheGapsOfTheOpcodeMap : Obligations.UnrecognizedWordsAreTheGapsOfTheOpcodeMap := by
  intro w
  rw [decodeWord_eq_none_iff, famOf_toNat, nBits_toNat, kkOf_toNat]

end Sys2Proof
end

/-! # Encoding family: the rows of the opcode map (R92, R94) -/

section
namespace Sys2Proof

variable {w v : Word} {i : Instr} {row p q : OpcodeRow}

open Laws.RowOfEncoding in
/-- The word of every instruction matches the row of its mnemonic. -/
theorem rowOfEncoding (i : Instr) : Statement i :=
  Instr.casesOn i cls ret jp call sei snei ser ldi addi mov or and xor add sub shr subn shl sner ldx jpo rnd drw skp sknp
    lddt waitk stdt stst addx font bcd stm ldm

/-- A word that decodes matches the row of its instruction. -/
theorem exists_row_of_decodeWord (h : decodeWord w = some i) :
    ∃ row ∈ opcodeRows, row.mnemonic = i.mnemonic ∧ w &&& row.mask = row.pattern := by
  obtain ⟨row, hrow, hname, hsel⟩ := rowOfEncoding i
  rw [decodedWordIsTheEncodingOfItsInstruction w i h, OpcodeRow.selects, beq_iff_eq] at hsel
  exact ⟨row, hrow, hname, hsel⟩

/-! ## Rows are told apart by their mnemonics, and by bits that both fix -/

theorem row_eq_of_mnemonic_eq (hp : p ∈ opcodeRows) (hq : q ∈ opcodeRows) (h : p.mnemonic = q.mnemonic) : p = q := by
  have hrows : ∀ p ∈ opcodeRows, ∀ q ∈ opcodeRows, p.mnemonic = q.mnemonic → p = q := by decide
  exact hrows p hp q hq h

theorem row_eq_of_and_eq (hp : p ∈ opcodeRows) (hq : q ∈ opcodeRows)
    (h : p.pattern &&& q.mask = q.pattern &&& p.mask) : p = q := by
  have hrows : ∀ p ∈ opcodeRows, ∀ q ∈ opcodeRows, p.pattern &&& q.mask = q.pattern &&& p.mask → p = q := by decide
  exact hrows p hp q hq h

/-- At most one row matches a word (R92). -/
theorem row_unique (hp : p ∈ opcodeRows) (hq : q ∈ opcodeRows) (hwp : w &&& p.mask = p.pattern)
    (hwq : w &&& q.mask = q.pattern) : p = q := by
  apply row_eq_of_and_eq hp hq
  rw [← hwp, ← hwq, BitVec.and_assoc, BitVec.and_assoc, BitVec.and_comm p.mask]

/-! ## A word that matches a row decodes -/

/-- In the families without gaps every word decodes (R101). -/
theorem decodeWord_ne_none_of_fam (h : (famOf w).toNat ∉ [0x0, 0x5, 0x8, 0x9, 0xE, 0xF]) : decodeWord w ≠ none := by
  simp only [List.mem_cons, List.not_mem_nil, or_false, not_or] at h
  rw [Ne, decodeWord_eq_none_iff]
  omega

/-- In families 5, 8 and 9 the low nibble says whether a word decodes (R96, R97). -/
theorem decodeWord_eq_none_congr_nBits (hf : famOf w = famOf v) (hv : (famOf v).toNat ∈ [0x5, 0x8, 0x9])
    (hn : nBits w = nBits v) : decodeWord w = none ↔ decodeWord v = none := by
  simp only [List.mem_cons, List.not_mem_nil, or_false] at hv
  rw [decodeWord_eq_none_iff, decodeWord_eq_none_iff, hf, hn]
  rcases hv with h | h | h <;> simp [h]

/-- In families E and F the low byte says whether a word decodes (R98, R99). -/
theorem decodeWord_eq_none_congr_kkOf (hf : famOf w = famOf v) (hv : (famOf v).toNat ∈ [0xE, 0xF])
    (hkk : kkOf w = kkOf v) : decodeWord w = none ↔ decodeWord v = none := by
  simp only [List.mem_cons, List.not_mem_nil, or_false] at hv
  rw [decodeWord_eq_none_iff, decodeWord_eq_none_iff, hf, hkk]
  rcases hv with h | h <;> simp [h]

/-- A mask shows what its row compares: the word, the family where that decides, or the family and a sub-opcode, whose
place depends on the family (R94). -/
theorem opcodeRows_masks : ∀ row ∈ opcodeRows,
    (row.mask = 0xF000 ∧ (famOf row.pattern).toNat ∉ [0x0, 0x5, 0x8, 0x9, 0xE, 0xF]) ∨
    (decodeWord row.pattern ≠ none ∧
      (row.mask = 0xFFFF ∨
       row.mask = 0xF00F ∧ (famOf row.pattern).toNat ∈ [0x5, 0x8, 0x9] ∨
       row.mask = 0xF0FF ∧ (famOf row.pattern).toNat ∈ [0xE, 0xF])) := by
  decide

theorem decodeWord_ne_none_of_row (hrow : row ∈ opcodeRows) (h : w &&& row.mask = row.pattern) :
    decodeWord w ≠ none := by
  rcases opcodeRows_masks row hrow with ⟨hm, hfam⟩ | ⟨hdec, hm | ⟨hm, hfam⟩ | ⟨hm, hfam⟩⟩ <;> rw [hm] at h
  · rw [and_maskFam] at h
    rw [← h, famOf_packA] at hfam
    exact decodeWord_ne_none_of_fam hfam
  · rwa [← h, show w &&& 0xFFFF = w from BitVec.and_allOnes] at hdec
  · rw [and_maskFamN] at h
    exact mt (decodeWord_eq_none_congr_nBits (by simp [← h]) hfam (by simp [← h])).mp hdec
  · rw [and_maskFamKK] at h
    exact mt (decodeWord_eq_none_congr_kkOf (by simp [← h]) hfam (by simp [← h])).mp hdec

/-- A word matches a row exactly when it decodes to an instruction with the mnemonic of the row. -/
theorem and_mask_eq_pattern_iff (hrow : row ∈ opcodeRows) :
    w &&& row.mask = row.pattern ↔ ∃ i, decodeWord w = some i ∧ i.mnemonic = row.mnemonic := by
  constructor
  · intro h
    obtain ⟨i, hi⟩ := Option.ne_none_iff_exists'.mp (decodeWord_ne_none_of_row hrow h)
    obtain ⟨p, hp, hname, hsel⟩ := exists_row_of_decodeWord hi
    exact ⟨i, hi, by rw [← hname, row_unique hp hrow hsel h]⟩
  · rintro ⟨i, hi, hname⟩
    obtain ⟨p, hp, hpname, hsel⟩ := exists_row_of_decodeWord hi
    rwa [← row_eq_of_mnemonic_eq hp hrow (hpname.trans hname)]

/-- A word is unrecognized exactly when it matches no row (R100). -/
theorem decodeWord_eq_none_iff_no_row :
    decodeWord w = none ↔ ∀ row ∈ opcodeRows, w &&& row.mask ≠ row.pattern := by
  constructor
  · exact fun h row hrow hsel => decodeWord_ne_none_of_row hrow hsel h
  · intro h
    by_contra hne
    obtain ⟨i, hi⟩ := Option.ne_none_iff_exists'.mp hne
    obtain ⟨row, hrow, -, hsel⟩ := exists_row_of_decodeWord hi
    exact h row hrow hsel

/-- Settles O4: a decoded word matches the row of its instruction, and no word matches two rows. -/
theorem wordSelectsTheRowOfItsInstruction : Obligations.WordSelectsTheRowOfItsInstruction :=
  ⟨fun _ _ hrow => and_mask_eq_pattern_iff hrow, fun _ => decodeWord_eq_none_iff_no_row,
    fun _ _ hp _ hq => row_unique hp hq⟩

end Sys2Proof
end

/-! # Step family: what a step answers to what it runs (R120 to R130) -/

section
namespace Sys2Proof.Machine

variable {i j : Instr} {s t u : State} {f : Fault}

/-- A completed step that runs `i` is the tick and the report of what the execute phase of `i` left (P-R129). -/
theorem step_next_of_instr (hi : Runs s i) (h : step s = .next t) :
    ∃ u, exec i (beginStep s) = .next u ∧ t = report (tick u) := by
  rw [step_of_instr hi] at h
  exact finishStep_next h

theorem step_of_exec_next (hi : Runs s i) (hu : exec i (beginStep s) = .next u) :
    step s = .next (report (tick u)) := by
  rw [step_of_instr hi, hu, finishStep]

theorem step_of_exec_fault (hi : Runs s i) (hf : exec i (beginStep s) = .fault f) : step s = .fault f := by
  rw [step_of_instr hi, hf, finishStep]

/-- A state that runs `i` runs `j` exactly when they are one instruction. -/
theorem Runs.iff_eq (hi : Runs s i) : Runs s j ↔ i = j := ⟨hi.unique, fun e => e ▸ hi⟩

/-- Settles O6: the fetched word is the two bytes put together, and the phases around execution are the record updates
of the statement. -/
theorem stepRunsTheDecodedInstruction : Obligations.StepRunsTheDecodedInstruction := by
  intro s i hpc hdecode
  have hi : Runs s i := ⟨hpc, hdecode⟩
  exact ⟨fun u hu => step_of_exec_next hi hu, fun f hf => step_of_exec_fault hi hf⟩

/-- Settles O8: the step is the tick and the report of an advance that records the word and its address. -/
theorem unrecognizedWordIsANoOpWithADiagnostic : Obligations.UnrecognizedWordIsANoOpWithADiagnostic := by
  intro s hs
  exact ⟨_, step_of_unrecognized hs, rfl, tickDown_toNat s.dt, tickDown_toNat s.st, rfl⟩

/-! ## Failures -/

/-- All the ways a step fails: `step_fault_cases` with its converse. -/
theorem step_fault_iff : step s = .fault f ↔
    (4094 < s.pc.toNat ∧ f = .pcOutOfRange s.pc) ∨
    (∃ nnn, Runs s (.call nnn) ∧ s.sp = 16 ∧ f = .stackOverflow s.pc) ∨
    (Runs s .ret ∧ s.sp = 0 ∧ f = .stackUnderflow s.pc) := by
  refine ⟨step_fault_cases, ?_⟩
  rintro (⟨hpc, rfl⟩ | ⟨nnn, hi, hsp, rfl⟩ | ⟨hi, hsp, rfl⟩)
  · exact step_of_gt hpc
  · exact step_of_exec_fault hi (execCall_of_full (s := beginStep s) nnn hsp)
  · exact step_of_exec_fault hi (execRet_of_empty (s := beginStep s) hsp)

/-- Settles O9: below the bound a step fails only as a `CALL` or a `RET` does. -/
theorem stepBeyondTheLastFetchAddressFails : Obligations.StepBeyondTheLastFetchAddressFails := by
  refine fun _ => ⟨step_of_gt, fun hle _ h => ?_⟩
  obtain ⟨hgt, -⟩ | ⟨nnn, -, -, hf⟩ | ⟨-, -, hf⟩ := step_fault_cases h
  · exact absurd hle (Nat.not_le.mpr hgt)
  · cases hf
  · cases hf

/-- The count of draws and the presented bytes replaced: the input of a step that is not the CORE's (R132, log 3,
log 4). -/
def replaceRandom (s : State) (d : Nat) (l : List Byte) : State := { s with draws := d, rndIn := l }

/-- No failure depends on the random input. -/
theorem step_replaceRandom_fault_iff (s : State) (d : Nat) (l : List Byte) :
    step (replaceRandom s d l) = .fault f ↔ step s = .fault f := by
  rw [step_fault_iff, step_fault_iff]
  rfl

theorem hostStep_of_fault {rnd : Byte} (h : step { s with rndIn := [rnd] } = .fault f) :
    hostStep rnd s = (s, .failed f) := by
  rw [hostStep, h]

/-- `STEP(rnd)` reports a failure exactly where the step fails, whatever byte is presented (R120, R130). -/
theorem hostStep_failed_iff {rnd : Byte} : (hostStep rnd s).2 = .failed f ↔ step s = .fault f := by
  have hinput : step { s with rndIn := [rnd] } = .fault f ↔ step s = .fault f :=
    step_replaceRandom_fault_iff s s.draws [rnd]
  rw [← hinput, hostStep]
  cases step { s with rndIn := [rnd] } with
  | next t => simp
  | fault g => simp
  | refused r => simp

/-- A failed `STEP` leaves the state, and is the same for every presented byte (R130, R214, R215). -/
theorem hostStep_eq_of_failed {rnd : Byte} (h : (hostStep rnd s).2 = .failed f) (rnd' : Byte) :
    hostStep rnd' s = (s, .failed f) :=
  hostStep_of_fault ((step_replaceRandom_fault_iff s s.draws [rnd']).mpr (hostStep_failed_iff.mp h))

/-- Settles O12: whether a step fails, and how, is decided by items that a failure keeps and no presented byte
touches. -/
theorem failedStepChangesNothingAndFailsAgain : Obligations.FailedStepChangesNothingAndFailsAgain :=
  fun _ rnd _ h => ⟨congrArg Prod.fst (hostStep_eq_of_failed h rnd), hostStep_eq_of_failed h⟩

end Sys2Proof.Machine
end

/-! # Step family: the timers (R127) -/

section
namespace Sys2Proof.Machine

variable {i : Instr} {s t : State}

/-- Only the row of `STDT` names `DT`. -/
theorem writesOf_dt_eq_false (h : ∀ x, i ≠ .stdt x) (s : State) : (writesOf i s).dt = false := by
  cases i
  case stdt x => exact absurd rfl (h x)
  all_goals rfl

/-- Only the row of `STST` names `ST`. -/
theorem writesOf_st_eq_false (h : ∀ x, i ≠ .stst x) (s : State) : (writesOf i s).st = false := by
  cases i
  case stst x => exact absurd rfl (h x)
  all_goals rfl

theorem step_stdt_dt {x : Reg} (hi : Runs s (.stdt x)) (h : step s = .next t) :
    t.dt.toNat = (s.reg x).toNat - 1 := by
  obtain ⟨u, hu, rfl⟩ := step_next_of_instr hi h
  obtain rfl := Host.Outcome.next.inj hu
  exact tickDown_toNat (s.reg x)

theorem step_stst_st {x : Reg} (hi : Runs s (.stst x)) (h : step s = .next t) :
    t.st.toNat = (s.reg x).toNat - 1 := by
  obtain ⟨u, hu, rfl⟩ := step_next_of_instr hi h
  obtain rfl := Host.Outcome.next.inj hu
  exact tickDown_toNat (s.reg x)

/-- A step that does not write `DT` only ticks it. -/
theorem step_dt_of_not_stdt (hno : ∀ x, ¬ Runs s (.stdt x)) (h : step s = .next t) :
    t.dt.toNat = s.dt.toNat - 1 := by
  obtain ⟨i, u, hi, hu, rfl⟩ | ⟨-, rfl⟩ := step_next_cases h
  · have hne : ∀ x, i ≠ .stdt x := fun x e => hno x (e ▸ hi)
    have hkept : u.dt = s.dt := (exec_frame hu).dt (writesOf_dt_eq_false hne _)
    rw [report_dt, tick_dt, tickDown_toNat, hkept]
  · exact tickDown_toNat s.dt

/-- A step that does not write `ST` only ticks it. -/
theorem step_st_of_not_stst (hno : ∀ x, ¬ Runs s (.stst x)) (h : step s = .next t) :
    t.st.toNat = s.st.toNat - 1 := by
  obtain ⟨i, u, hi, hu, rfl⟩ | ⟨-, rfl⟩ := step_next_cases h
  · have hne : ∀ x, i ≠ .stst x := fun x e => hno x (e ▸ hi)
    have hkept : u.st = s.st := (exec_frame hu).st (writesOf_st_eq_false hne _)
    rw [report_st, tick_st, tickDown_toNat, hkept]
  · exact tickDown_toNat s.st

/-- `LDDT` reads the timer as the step found it (R202). -/
theorem step_lddt_reg {x : Reg} (hi : Runs s (.lddt x)) (h : step s = .next t) : t.reg x = s.dt := by
  obtain ⟨u, hu, rfl⟩ := step_next_of_instr hi h
  obtain rfl := Host.Outcome.next.inj hu
  exact setReg_reg_same (beginStep s) x s.dt

/-- Settles O13: the tick follows what the execute phase left, and a failed `STEP` leaves the state. -/
theorem timersTickOncePerSuccessfulStep : Obligations.TimersTickOncePerSuccessfulStep := by
  refine ⟨fun s t h => ⟨fun x hi => step_stdt_dt hi h, fun hno => step_dt_of_not_stdt hno h,
    fun x hi => step_stst_st hi h, fun hno => step_st_of_not_stst hno h, fun x hi => step_lddt_reg hi h⟩, ?_⟩
  intro _ rnd _ h
  rw [hostStep_eq_of_failed h rnd]
  exact ⟨rfl, rfl⟩

end Sys2Proof.Machine
end

/-! # Step family: the effect flags and the diagnostic (R128, R213) -/

section
namespace Sys2Proof.Machine

variable {i : Instr} {s t : State}

/-- The rows of `CLS` and `DRW` are those that name `redraw_needed`. -/
theorem writesOf_redraw_iff : (writesOf i s).redraw = true ↔ i = .cls ∨ ∃ x y n, i = .drw x y n := by
  cases i <;> simp [writesOf]

/-- A completed execute phase requests a redraw if its row says so, and withdraws no request. -/
theorem exec_redrawNeeded (h : exec i s = .next t) :
    t.out.redrawNeeded = ((writesOf i s).redraw || s.out.redrawNeeded) := by
  cases hw : (writesOf i s).redraw with
  | false => exact (exec_frame h).redraw hw
  | true =>
    obtain rfl | ⟨x, y, n, rfl⟩ := writesOf_redraw_iff.mp hw
    · obtain rfl := Host.Outcome.next.inj h
      rfl
    · obtain rfl := Host.Outcome.next.inj h
      rfl

theorem step_redrawNeeded_iff (h : step s = .next t) :
    t.out.redrawNeeded = true ↔ Runs s .cls ∨ ∃ x y n, Runs s (.drw x y n) := by
  obtain ⟨i, u, hi, hu, rfl⟩ | ⟨hs, rfl⟩ := step_next_cases h
  · simp only [hi.iff_eq, report_out, tick_out, exec_redrawNeeded hu, beginStep_out, clear_redraw, Bool.or_false,
      writesOf_redraw_iff]
  · simp [hs.not_runs]

theorem step_toneActive_iff (h : step s = .next t) : t.out.toneActive = true ↔ t.st.toNat ≠ 0 := by
  have htone : t.out.toneActive = (t.st != 0) := by
    obtain ⟨i, u, -, -, rfl⟩ | ⟨-, rfl⟩ := step_next_cases h <;> rfl
  rw [htone, bne_iff_ne, Ne, ← BitVec.toNat_inj]
  rfl

theorem step_diag_iff (h : step s = .next t) (d : Diagnostic) :
    t.out.diag = some d ↔ RunsUnrecognized s ∧ d = { word := wordAt s.mem s.pc, pc := s.pc } := by
  obtain ⟨i, u, hi, hu, rfl⟩ | ⟨hs, rfl⟩ := step_next_cases h
  · have hnone : u.out.diag = none := (exec_frame hu).output.2
    have hrec : ¬ RunsUnrecognized s := fun hs => hs.not_runs i hi
    simp [hnone, hrec]
  · simp [hs, eq_comm]

/-- Settles O15, flag by flag. -/
theorem effectFlagsReportTheStep : Obligations.EffectFlagsReportTheStep :=
  fun _ _ h => ⟨step_redrawNeeded_iff h, step_toneActive_iff h, step_diag_iff h⟩

end Sys2Proof.Machine
end

/-! # Step family: the random input (R132, R172, R191)

The execute phase on a state with another random input, as for the dead stack slots and for memory above. -/

section
namespace Sys2Proof.Machine

variable {i : Instr} {s t : State}

/-- Only `RND` and the words that break the flag-register constraint have rows that name the draws. -/
theorem writesOf_draws_eq_false (hwf : i.wellFormed = true) (hrnd : ∀ x kk, i ≠ .rnd x kk) (s : State) :
    (writesOf i s).draws = false := by
  cases i
  case rnd x kk => exact absurd rfl (hrnd x kk)
  case add | sub | shr | subn | shl => simpa [Instr.wellFormed, notFlag, writesOf] using hwf
  all_goals rfl

section
variable (s : State) (d : Nat) (l : List Byte)

theorem skipIf_replaceRandom (b : Bool) : skipIf (replaceRandom s d l) b = replaceRandom (skipIf s b) d l := by
  cases b <;> rfl

theorem storeBlock_replaceRandom (n : Nat) :
    storeBlock (replaceRandom s d l) n = replaceRandom (storeBlock s n) d l := by
  induction n with
  | zero => rfl
  | succ n ih => rw [storeBlock, ih]; rfl

theorem loadBlock_replaceRandom (n : Nat) :
    loadBlock (replaceRandom s d l) n = replaceRandom (loadBlock s n) d l := by
  induction n with
  | zero => rfl
  | succ n ih => rw [loadBlock, ih]; rfl

theorem drawRows_replaceRandom (vx vy : Byte) (n : Nat) :
    drawRows (replaceRandom s d l) vx vy n = drawRows s vx vy n := by
  induction n with
  | zero => rfl
  | succ n ih => rw [drawRows, ih]; rfl

/-- An operation with a flag draws nothing when `RF` is no operand. -/
theorem flaggedOp_replaceRandom {t : State} {x : Reg} {b : Bool} {v : Byte} {f : Bool} (hb : b = false)
    (h : flaggedOp s x b v f = .next t) :
    flaggedOp (replaceRandom s d l) x b v f = .next (replaceRandom t d l) := by
  subst hb
  obtain rfl := Host.Outcome.next.inj h
  rfl

end

/-- An instruction whose row names no draws answers the same on any random input, and leaves that input alone. -/
theorem exec_replaceRandom (hi : (writesOf i s).draws = false) (h : exec i s = .next t) (d : Nat) (l : List Byte) :
    exec i (replaceRandom s d l) = .next (replaceRandom t d l) := by
  cases i
  case rnd => simp [writesOf] at hi
  case ret =>
    obtain ⟨k, hk, rfl⟩ := execRet_next h
    exact execRet_of_succ (s := replaceRandom s d l) hk
  case call nnn =>
    obtain ⟨k, hk, rfl⟩ := execCall_next h
    exact execCall_of_castSucc (s := replaceRandom s d l) nnn hk
  case waitk x =>
    rcases execWaitk_next h with ⟨hk, rfl⟩ | ⟨j, hk, rfl⟩
    · exact execWaitk_of_none (s := replaceRandom _ d l) hk
    · exact execWaitk_of_some (s := replaceRandom s d l) hk
  case add | sub | shr | subn | shl => exact flaggedOp_replaceRandom s d l hi h
  all_goals obtain rfl := Host.Outcome.next.inj h
  case sei | snei | ser | sner | skp | sknp => exact congrArg _ (skipIf_replaceRandom s d l _)
  case drw x y n => simp only [exec, execDrw, drawRows_replaceRandom]; rfl
  case stm x => simp only [exec, execStm, storeBlock_replaceRandom]; rfl
  case ldm x => simp only [exec, execLdm, loadBlock_replaceRandom]; rfl
  all_goals rfl

/-- Settles O18: the instruction's row names no draws, and the phases around its execution read no random input. -/
theorem randomInputMattersOnlyToRndAndFlagOperandWords :
    Obligations.RandomInputMattersOnlyToRndAndFlagOperandWords := by
  intro s t i d l hi hwf hrnd h
  obtain ⟨u, hu, rfl⟩ := step_next_of_instr hi h
  have hruns : Runs (replaceRandom s d l) i := hi
  exact step_of_exec_next hruns (exec_replaceRandom (writesOf_draws_eq_false hwf hrnd (beginStep s)) hu d l)

end Sys2Proof.Machine
end

/-! # Control family: `JP` and `JPO` (R141, R143) -/

section
namespace Sys2Proof.Machine

@[simp] theorem addressOf_toNat (nnn : Addr12) : (addressOf nnn).toNat = nnn.toNat :=
  BitVec.toNat_setWidth_of_le (by decide)

@[simp] theorem widen_toNat (v : Byte) : (widen v).toNat = v.toNat :=
  BitVec.toNat_setWidth_of_le (by decide)

/-- A byte and an address add up to 4350 at most, so the sum of `JPO` is not reduced modulo 65536 either. -/
theorem widen_add_addressOf_toNat (v : Byte) (nnn : Addr12) :
    (widen v + addressOf nnn).toNat = v.toNat + nnn.toNat := by
  have hbyte := v.isLt
  have haddr := nnn.isLt
  rw [BitVec.toNat_add_of_lt] <;> simp only [widen_toNat, addressOf_toNat]
  omega

/-- A word of format A, written as a number, decodes as the encoder's word does (R91, R92). -/
theorem decodeWord_formatA {i : Instr} {f : Nibble} {nnn : Addr12} (h : encode i = packA f nnn) :
    decodeWord (BitVec.ofNat 16 (4096 * f.toNat + nnn.toNat)) = some i := by
  rw [← packA_number, ← h, decodeWord_encode]

/-- A jump changes `pc` alone, and the next step fails if no word can be fetched from there (R121). -/
theorem jumpTo_spec (s : State) (v : Word) :
    Frame {} s (jumpTo s v) ∧ (4094 < v.toNat → step (jumpTo s v) = .fault (.pcOutOfRange v)) :=
  ⟨frame_jumpTo v (frame_refl {} s), fun h => step_of_gt h⟩

/-- Settles O35: the execute phase is a jump to the address field. -/
theorem jpSetsThePc : Obligations.JpSetsThePc := by
  intro nnn s
  obtain ⟨hframe, hfail⟩ := jumpTo_spec s (addressOf nnn)
  rw [addressOf_toNat] at hfail
  exact ⟨decodeWord_formatA (f := 0x1) rfl, _, rfl, addressOf_toNat nnn, hframe, hfail⟩

/-- Settles O36: the execute phase is a jump to the sum, which `widen_add_addressOf_toNat` gives as a number. -/
theorem jpoAddsRegisterZero : Obligations.JpoAddsRegisterZero := by
  intro nnn s
  have hsum := widen_add_addressOf_toNat (s.reg 0) nnn
  obtain ⟨hframe, hfail⟩ := jumpTo_spec s (widen (s.reg 0) + addressOf nnn)
  rw [hsum] at hfail
  exact ⟨decodeWord_formatA (f := 0xB) rfl, _, rfl, hsum, hframe, hfail⟩

end Sys2Proof.Machine
end

/-! # Control family: `CALL` and `RET` (R140, R142, R146)

By the slot that the instruction fills or takes from: `SP` is its number for `CALL`, and one more for `RET`. -/

section
namespace Sys2Proof.Machine

variable {s : State} {nnn : Addr12} {k : Fin 16}

theorem sp_eq_castSucc_of_lt (h : s.sp.val < 16) : ∃ k : Fin 16, s.sp = k.castSucc := ⟨⟨s.sp.val, h⟩, rfl⟩

/-- Filling slot `SP` changes that slot alone. -/
theorem stk_set_of_castSucc (hk : s.sp = k.castSucc) (h : s.sp.val < 16) (v : Word) :
    (s.stk.set k v)[s.sp.val] = v ∧ ∀ j : Fin 16, j.val ≠ s.sp.val → (s.stk.set k v)[j] = s.stk[j] := by
  refine ⟨by simp [hk], fun j hj => ?_⟩
  have hne : k.val ≠ j.val := by simpa [hk] using hj.symm
  simp [hne]

/-- Settles O37: below 16 entries the push fills the slot `SP`, and a full stack fails. -/
theorem callSavesTheNextAddress : Obligations.CallSavesTheNextAddress := by
  refine fun nnn s => ⟨fun h => ?_, fun h => execCall_of_full nnn (Fin.ext h)⟩
  obtain ⟨k, hk⟩ := sp_eq_castSucc_of_lt h
  obtain ⟨hslot, hothers⟩ := stk_set_of_castSucc hk h (s.pc + 2#16)
  have hexec := execCall_of_castSucc nnn hk
  have hcount : k.succ.val = s.sp.val + 1 := by simp [hk]
  exact ⟨_, hexec, addressOf_toNat nnn, hcount, hslot, hothers, frame_execCall hexec⟩

/-- Settles O38: the pop takes slot `SP - 1` and leaves the slots alone, and an empty stack fails. -/
theorem retTakesTheNewestAddress : Obligations.RetTakesTheNewestAddress := by
  refine fun s => ⟨fun k h => ?_, fun h => execRet_of_empty (Fin.ext h)⟩
  have hexec := execRet_of_succ (k := k) (Fin.ext h)
  exact ⟨_, hexec, rfl, rfl, rfl, frame_execRet hexec⟩

/-! ## A call and the return from it -/

theorem tickDown_tickDown_toNat (v : Byte) : (tickDown (tickDown v)).toNat = v.toNat - 2 := by
  rw [tickDown_toNat, tickDown_toNat, Nat.sub_sub]

/-- The state after a `CALL` that fills slot `k` and the `RET` at its target: `pc` at the instruction after the call,
the slot dead again but still holding that address, and two ticks (R127, R146). -/
def afterCallAndRet (s : State) (k : Fin 16) : State :=
  { s with
    pc := s.pc + 2#16
    stk := s.stk.set k (s.pc + 2#16)
    dt := tickDown (tickDown s.dt)
    st := tickDown (tickDown s.st)
    out := { redrawNeeded := false, toneActive := tickDown (tickDown s.st) != 0, diag := none } }

theorem step_call_of_castSucc (hi : Runs s (.call nnn)) (h : s.sp = k.castSucc) :
    step s = .next (report (tick (jumpTo
      { beginStep s with stk := s.stk.set k (s.pc + 2#16), sp := k.succ } (addressOf nnn)))) :=
  step_of_exec_next hi (execCall_of_castSucc (s := beginStep s) nnn h)

theorem step_ret_of_succ (hi : Runs s .ret) (h : s.sp = k.succ) :
    step s = .next (report (tick (jumpTo { beginStep s with sp := k.castSucc } s.stk[k]))) :=
  step_of_exec_next hi (execRet_of_succ (s := beginStep s) h)

/-- The `RET` takes from the slot that the `CALL` fills. -/
theorem stepsTo_afterCallAndRet (hcall : Runs s (.call nnn)) (hk : s.sp = k.castSucc)
    (hret : Runs (jumpTo s (addressOf nnn)) .ret) : StepsTo 2 s (afterCallAndRet s k) := by
  refine stepsTo_succ.mpr ⟨_, step_call_of_castSucc hcall hk, stepsTo_succ.mpr ⟨_, step_ret_of_succ hret rfl, ?_⟩⟩
  rw [stepsTo_zero]
  apply State.ext_fields <;> simp [afterCallAndRet, hk]

/-- Settles O30: the state after both steps is `afterCallAndRet`, with the slot `SP` filled. -/
theorem callThenReturnResumesAfterTheCall : Obligations.CallThenReturnResumesAfterTheCall := by
  intro s nnn h hcall hle hdecode
  obtain ⟨k, hk⟩ := sp_eq_castSucc_of_lt h
  have hret : Runs (jumpTo s (addressOf nnn)) .ret := ⟨(addressOf_toNat nnn).le.trans hle, hdecode⟩
  obtain ⟨hslot, hothers⟩ := stk_set_of_castSucc hk h (s.pc + 2#16)
  exact ⟨_, stepsTo_afterCallAndRet hcall hk hret, rfl, hslot, hothers, tickDown_tickDown_toNat s.dt,
    tickDown_tickDown_toNat s.st, rfl⟩

end Sys2Proof.Machine
end

/-! # Skip family: `SEI`, `SNEI`, `SER` and `SNER` (R150 to R154) -/

section
namespace Sys2Proof.Machine

/-- A word of format XK, written as a number, decodes as the encoder's word does (R91, R92). -/
theorem decodeWord_formatXK {i : Instr} {f : Nibble} {x : Reg} {kk : Byte} (h : encode i = packXK f x kk) :
    decodeWord (BitVec.ofNat 16 (4096 * f.toNat + 256 * x.val + kk.toNat)) = some i := by
  rw [← packXK_number, ← h, decodeWord_encode]

/-- A word of format XY or XYN, written as a number, decodes as the encoder's word does (R91, R92). -/
theorem decodeWord_formatXYN {i : Instr} {f : Nibble} {x y : Reg} {n : Nibble} (h : encode i = packXYN f x y n) :
    decodeWord (BitVec.ofNat 16 (4096 * f.toNat + 256 * x.val + 16 * y.val + n.toNat)) = some i := by
  rw [← packXYN_number, ← h, decodeWord_encode]

/-- A skip whose tested condition is `P` changes `pc` alone, by 4 if `P` holds and else by 2 (R150). -/
theorem skipIf_spec (s : State) {b : Bool} {P : Prop} [Decidable P] (h : b = true ↔ P) :
    Frame {} s (skipIf s b) ∧ (skipIf s b).pc = s.pc + (if P then 4#16 else 2#16) := by
  refine ⟨frame_skipIf s b, ?_⟩
  simp only [skipIf_pc, h, apply_ite (s.pc + ·)]

/-- Equality of bit patterns is equality of the unsigned values (R150). -/
theorem beq_iff_toNat_eq (v w : Byte) : (v == w) = true ↔ v.toNat = w.toNat := beq_iff_eq.trans BitVec.toNat_inj.symm

theorem bne_iff_toNat_ne (v w : Byte) : (v != w) = true ↔ v.toNat ≠ w.toNat :=
  bne_iff_ne.trans BitVec.toNat_inj.symm.not

/-- Settles O39: each is one skip, on the two 8-bit values being equal or being different. -/
theorem registerSkipsAddTwoMoreWhenTheConditionHolds :
    Obligations.RegisterSkipsAddTwoMoreWhenTheConditionHolds := by
  intro x y kk s
  exact ⟨decodeWord_formatXK (f := 0x3) rfl, decodeWord_formatXK (f := 0x4) rfl,
    decodeWord_formatXYN (f := 0x5) (n := 0) rfl, decodeWord_formatXYN (f := 0x9) (n := 0) rfl,
    ⟨_, rfl, skipIf_spec s (beq_iff_toNat_eq (s.reg x) kk)⟩,
    ⟨_, rfl, skipIf_spec s (bne_iff_toNat_ne (s.reg x) kk)⟩,
    ⟨_, rfl, skipIf_spec s (beq_iff_toNat_eq (s.reg x) (s.reg y))⟩,
    ⟨_, rfl, skipIf_spec s (bne_iff_toNat_ne (s.reg x) (s.reg y))⟩⟩

end Sys2Proof.Machine
end

/-! # Register ALU family: immediates, copy and bit logic (R160 to R165)

Each is one register written and `pc + 2`. -/

section
namespace Sys2Proof.Machine

/-- A register written and the next instruction: all that an operation without a flag does. -/
theorem advance_setReg_spec (s : State) (x : Reg) (v : Byte) :
    (advance (setReg s x v)).pc = s.pc + 2#16 ∧ Frame { regs := fun r => r == x } s (advance (setReg s x v)) ∧
      (advance (setReg s x v)).reg x = v :=
  ⟨rfl, frame_advance (frame_setReg s x v), setReg_reg_same s x v⟩

/-- A word of family 8, written as the number of its row and the two register fields, decodes as the encoder's word
does (R91, R92). -/
theorem decodeWord_family8 {i : Instr} {x y : Reg} {n : Nibble} (h : encode i = packXYN 0x8 x y n) :
    decodeWord (BitVec.ofNat 16 (0x8000 + n.toNat + 256 * x.val + 16 * y.val)) = some i := by
  have hsum : 0x8000 + n.toNat + 256 * x.val + 16 * y.val =
      4096 * (0x8 : Nibble).toNat + 256 * x.val + 16 * y.val + n.toNat := by
    rw [show (0x8 : Nibble).toNat = 8 from rfl]
    omega
  rw [hsum, decodeWord_formatXYN h]

/-- Settles O41: one register is written, with the immediate or with its sum. -/
theorem immediatesWriteOneRegisterAndNoFlag : Obligations.ImmediatesWriteOneRegisterAndNoFlag := by
  intro x kk s
  obtain ⟨hldi, hldiFrame, hldiReg⟩ := advance_setReg_spec s x kk
  obtain ⟨haddi, haddiFrame, haddiReg⟩ := advance_setReg_spec s x (s.reg x + kk)
  exact ⟨decodeWord_formatXK (f := 0x6) rfl, decodeWord_formatXK (f := 0x7) rfl,
    ⟨_, rfl, hldi, hldiReg, hldiFrame⟩,
    ⟨_, rfl, haddi, by rw [haddiReg, BitVec.toNat_add], haddiFrame⟩⟩

/-- Settles O42: one register is written, and bit `k` of the value is the connective of the two bits `k`. -/
theorem copyAndLogicWriteOneRegisterAndNoFlag : Obligations.CopyAndLogicWriteOneRegisterAndNoFlag := by
  intro x y s
  obtain ⟨hor, horFrame, horReg⟩ := advance_setReg_spec s x (s.reg x ||| s.reg y)
  obtain ⟨hand, handFrame, handReg⟩ := advance_setReg_spec s x (s.reg x &&& s.reg y)
  obtain ⟨hxor, hxorFrame, hxorReg⟩ := advance_setReg_spec s x (s.reg x ^^^ s.reg y)
  exact ⟨decodeWord_family8 (n := 0x0) rfl, decodeWord_family8 (n := 0x1) rfl, decodeWord_family8 (n := 0x2) rfl,
    decodeWord_family8 (n := 0x3) rfl,
    ⟨_, rfl, advance_setReg_spec s x (s.reg y)⟩,
    ⟨_, rfl, hor, horFrame, fun k => by rw [horReg, BitVec.getLsbD_or]⟩,
    ⟨_, rfl, hand, handFrame, fun k => by rw [handReg, BitVec.getLsbD_and]⟩,
    ⟨_, rfl, hxor, hxorFrame, fun k => by rw [hxorReg, BitVec.getLsbD_xor]⟩⟩

end Sys2Proof.Machine
end

/-! # Register ALU family: the operations with a flag, `RF` no operand (R166 to R170) -/

section
namespace Sys2Proof.Machine

/-- All an operation with a flag does when `RF` is none of its operands. -/
theorem flaggedOp_specified (s : State) {x : Reg} {b : Bool} (hb : b = false) (hx : x ≠ rf) (v : Byte) (f : Bool) :
    ∃ t, flaggedOp s x b v f = .next t ∧ t.pc = s.pc + 2#16 ∧ Frame { regs := fun r => r == x || r == rf } s t ∧
      t.reg x = v ∧ t.reg rf = flagByte f := by
  subst hb
  exact ⟨_, rfl, rfl, frame_advance (frame_writeWithFlag s x v f), writeWithFlag_result s v f hx,
    writeWithFlag_flag s x v f⟩

/-- The constraint of R22 on two operands, as the operations test it. -/
theorem namesFlag_eq_false {x y : Reg} (hx : x ≠ rf) (hy : y ≠ rf) : (x == rf || y == rf) = false := by
  simp [hx, hy]

/-! ## Flags and results as numbers -/

theorem flagByte_decide (P : Prop) [Decidable P] : flagByte (decide P) = if P then 1 else 0 := by
  by_cases h : P <;> simp [h]

theorem flagByte_toNat (b : Bool) : (flagByte b).toNat = b.toNat := by cases b <;> rfl

/-- The bit that a right shift puts out, as a number (R168). -/
theorem flagByte_shiftedOutRight_toNat (a : Byte) : (flagByte (shiftedOutRight a)).toNat = a.toNat % 2 := by
  rw [flagByte_toNat, shiftedOutRight, BitVec.getLsbD, Nat.toNat_testBit, pow_zero, Nat.div_one]

/-- The bit that a left shift puts out, as a number (R170). -/
theorem flagByte_shiftedOutLeft_toNat (a : Byte) : (flagByte (shiftedOutLeft a)).toNat = a.toNat / 128 := by
  have := a.isLt
  rw [flagByte_toNat, shiftedOutLeft, BitVec.getLsbD, Nat.toNat_testBit]
  omega

/-- A difference of bytes is reduced modulo 256 as an integer (R9, R171). -/
theorem byte_sub_toNat (a b : Byte) : ((a - b).toNat : Int) = ((a.toNat : Int) - b.toNat) % 256 := by
  have := b.isLt
  rw [BitVec.toNat_sub]
  omega

theorem byte_shiftRight_one_toNat (a : Byte) : (a >>> 1).toNat = a.toNat / 2 := by
  rw [BitVec.toNat_ushiftRight, Nat.shiftRight_eq_div_pow, pow_one]

theorem byte_shiftLeft_one_toNat (a : Byte) : (a <<< 1).toNat = 2 * a.toNat % 256 := by
  rw [BitVec.toNat_shiftLeft, Nat.shiftLeft_eq, pow_one, Nat.mul_comm]

/-! ## The five operations -/

/-- Settles O43: the sum of bytes is reduced modulo 256, and the flag is the carry. -/
theorem addWritesTheSumAndTheCarry : Obligations.AddWritesTheSumAndTheCarry := by
  refine fun x y s => ⟨decodeWord_family8 (n := 0x4) rfl, fun hx hy => ?_⟩
  obtain ⟨t, ht, hpc, hframe, hreg, hflag⟩ := flaggedOp_specified s (namesFlag_eq_false hx hy) hx
    (s.reg x + s.reg y) (carryOut (s.reg x) (s.reg y))
  exact ⟨t, ht, hpc, hframe, by rw [hreg, BitVec.toNat_add], hflag.trans (flagByte_decide _)⟩

/-- Settles O44: both are the difference of two bytes, `SUBN` with the two exchanged. -/
theorem subtractionsWriteTheDifferenceAndNoBorrow : Obligations.SubtractionsWriteTheDifferenceAndNoBorrow := by
  refine fun x y s => ⟨decodeWord_family8 (n := 0x5) rfl, decodeWord_family8 (n := 0x7) rfl, fun hx hy => ?_⟩
  have hdiff (a b : Byte) : ∃ t, flaggedOp s x (x == rf || y == rf) (a - b) (noBorrow a b) = .next t ∧
      t.pc = s.pc + 2#16 ∧ Frame { regs := fun r => r == x || r == 15 } s t ∧
      ((t.reg x).toNat : Int) = ((a.toNat : Int) - b.toNat) % 256 ∧
      t.reg 15 = if a.toNat ≥ b.toNat then 1 else 0 := by
    obtain ⟨t, ht, hpc, hframe, hreg, hflag⟩ :=
      flaggedOp_specified s (namesFlag_eq_false hx hy) hx (a - b) (noBorrow a b)
    exact ⟨t, ht, hpc, hframe, by rw [hreg, byte_sub_toNat], hflag.trans (flagByte_decide _)⟩
  exact ⟨hdiff (s.reg x) (s.reg y), hdiff (s.reg y) (s.reg x)⟩

/-- Settles O45: no meaning of a shift reads its `y` field, and the bit shifted out is a remainder or a quotient. -/
theorem shiftsWriteTheResultAndTheBitShiftedOut : Obligations.ShiftsWriteTheResultAndTheBitShiftedOut := by
  refine fun x y s => ⟨decodeWord_family8 (n := 0x6) rfl, decodeWord_family8 (n := 0xE) rfl, fun _ => ⟨rfl, rfl⟩,
    fun hx => ⟨?_, ?_⟩⟩
  · obtain ⟨t, ht, hpc, hframe, hreg, hflag⟩ := flaggedOp_specified s (beq_false_of_ne hx) hx
      (s.reg x >>> 1) (shiftedOutRight (s.reg x))
    exact ⟨t, ht, hpc, hframe, by rw [hreg, byte_shiftRight_one_toNat],
      by rw [hflag, flagByte_shiftedOutRight_toNat]⟩
  · obtain ⟨t, ht, hpc, hframe, hreg, hflag⟩ := flaggedOp_specified s (beq_false_of_ne hx) hx
      (s.reg x <<< 1) (shiftedOutLeft (s.reg x))
    exact ⟨t, ht, hpc, hframe, by rw [hreg, byte_shiftLeft_one_toNat],
      by rw [hflag, flagByte_shiftedOutLeft_toNat]⟩

end Sys2Proof.Machine
end

/-! # Register ALU family: `RF` as an operand (R172) -/

section
namespace Sys2Proof.Machine

@[simp] theorem writeUnspecified_rndIn (s : State) (x : Reg) : (writeUnspecified s x).rndIn = s.rndIn := by
  rw [writeUnspecified_eq]

/-- `R[x]` and `RF` take the next two draws, in that order. -/
theorem writeUnspecified_draws_of_ne (s : State) {x : Reg} (hx : x ≠ rf) :
    (writeUnspecified s x).reg x = Config.freeByte s.draws ∧
      (writeUnspecified s x).reg rf = Config.freeByte (s.draws + 1) ∧
      (writeUnspecified s x).draws = s.draws + 2 := by
  rw [writeUnspecified_ne s hx]
  exact ⟨(setReg_reg_ne _ _ hx).trans (setReg_reg_same s x _), setReg_reg_same _ rf _, rfl⟩

/-- `RF` alone takes the next draw. -/
theorem writeUnspecified_rf_draws (s : State) :
    (writeUnspecified s rf).reg rf = Config.freeByte s.draws ∧ (writeUnspecified s rf).draws = s.draws + 1 := by
  rw [writeUnspecified_rf]
  exact ⟨setReg_reg_same s rf _, rfl⟩

/-- All an operation with a flag does when `RF` is one of its operands. -/
theorem flaggedOp_unspecified (s : State) (x : Reg) {b : Bool} (hb : b = true) (v : Byte) (f : Bool) :
    ∃ t, flaggedOp s x b v f = .next t ∧ t.pc = s.pc + 2#16 ∧
      Frame { regs := fun r => r == x || r == rf, draws := true } s t ∧ t.rndIn = s.rndIn ∧
      (x ≠ rf → t.reg x = Config.freeByte s.draws ∧ t.reg rf = Config.freeByte (s.draws + 1) ∧
        t.draws = s.draws + 2) ∧
      (x = rf → t.reg rf = Config.freeByte s.draws ∧ t.draws = s.draws + 1) := by
  subst hb
  refine ⟨_, rfl, flaggedOp_pc rfl, frame_flaggedOp rfl, writeUnspecified_rndIn s x,
    fun hx => writeUnspecified_draws_of_ne s hx, fun hx => ?_⟩
  subst hx
  exact writeUnspecified_rf_draws s

/-- Settles O46: in each of the five words the operation finds `RF` among its operands. -/
theorem flagOperandsLeaveUnspecifiedResults : Obligations.FlagOperandsLeaveUnspecifiedResults := by
  rintro x y s i (⟨hxy, hi⟩ | ⟨hx, hi⟩)
  · have hnames : (x == rf || y == rf) = true := by simpa using hxy
    obtain rfl | rfl | rfl := hi
    · exact flaggedOp_unspecified s x hnames _ _
    · exact flaggedOp_unspecified s x hnames _ _
    · exact flaggedOp_unspecified s x hnames _ _
  · have hnames : (x == rf) = true := beq_iff_eq.mpr hx
    obtain rfl | rfl := hi
    · exact flaggedOp_unspecified s x hnames _ _
    · exact flaggedOp_unspecified s x hnames _ _

end Sys2Proof.Machine
end

/-! # Index and memory family: `LDX`, `ADDX` and `FONT` (R180 to R182)

Each is the index register written and `pc + 2`. -/

section
namespace Sys2Proof.Machine

/-- A word of family F, written as the number of its row and the register field, decodes as the encoder's word does
(R91, R92). -/
theorem decodeWord_familyF {i : Instr} {x : Reg} {kk : Byte} (h : encode i = packXK 0xF x kk) :
    decodeWord (BitVec.ofNat 16 (0xF000 + kk.toNat + 256 * x.val)) = some i := by
  rw [Nat.add_right_comm, show 0xF000 = 4096 * (0xF : Nibble).toNat from rfl, decodeWord_formatXK h]

/-- The index register written and the next instruction: all that `LDX`, `ADDX` and `FONT` do. -/
theorem advance_setIdx_spec (s : State) {v : Word} {n : Nat} (hv : v.toNat = n) :
    (advance (setIdx s v)).pc = s.pc + 2#16 ∧ (advance (setIdx s v)).idx.toNat = n ∧
      Frame { idx := true } s (advance (setIdx s v)) :=
  ⟨rfl, hv, frame_advance (frame_setIdx s v)⟩

/-- `I` plus a register is reduced modulo 65536 (R181). -/
theorem add_widen_toNat (w : Word) (v : Byte) : (w + widen v).toNat = (w.toNat + v.toNat) % 65536 := by
  rw [BitVec.toNat_add, widen_toNat]

/-- Five times a byte is 1275 at most, so the product of `FONT` is not reduced modulo 65536 (R182). -/
theorem widen_mul_five_toNat (v : Byte) : (widen v * 5).toNat = 5 * v.toNat := by
  have hbyte := v.isLt
  rw [BitVec.toNat_mul, widen_toNat, show (5 : Word).toNat = 5 from rfl]
  omega

/-- Settles O47: `I` is written, with the address field or with its sum with a register. -/
theorem ldxAndAddxWriteTheIndexOnly : Obligations.LdxAndAddxWriteTheIndexOnly := by
  intro x nnn s
  exact ⟨decodeWord_formatA (f := 0xA) rfl, decodeWord_familyF (kk := 0x1E) rfl,
    ⟨_, rfl, advance_setIdx_spec s (addressOf_toNat nnn)⟩,
    ⟨_, rfl, advance_setIdx_spec s (add_widen_toNat s.idx (s.reg x))⟩⟩

/-- Settles O48: `I` is written, with a product that `widen_mul_five_toNat` gives as a number. -/
theorem fontMultipliesTheWholeRegisterByFive : Obligations.FontMultipliesTheWholeRegisterByFive := by
  intro x s
  exact ⟨decodeWord_familyF (kk := 0x29) rfl, _, rfl, advance_setIdx_spec s (widen_mul_five_toNat (s.reg x))⟩

end Sys2Proof.Machine
end

/-! # Index and memory family: `BCD`, `STM` and `LDM` (R183 to R186) -/

section
namespace Sys2Proof.Machine

/-! ## The digits of `BCD` as numbers (R183) -/

theorem hundreds_toNat (v : Byte) : (hundreds v).toNat = v.toNat / 100 := by
  have hbyte := v.isLt
  rw [hundreds, BitVec.toNat_ofNat]
  omega

theorem tens_toNat (v : Byte) : (tens v).toNat = v.toNat / 10 % 10 := by
  rw [tens, BitVec.toNat_ofNat]
  omega

theorem units_toNat (v : Byte) : (units v).toNat = v.toNat % 10 := by
  rw [units, BitVec.toNat_ofNat]
  omega

/-! ## The three stores of `BCD` -/

/-- A store at `I + k` is read at `I + j` exactly when `j` is `k`, as offsets below 4096 reach distinct bytes (R71). -/
theorem memWrite_indexAddr_read (s u : State) (v : Byte) {j k : Nat} (hj : j < 4096) (hk : k < 4096) :
    (memWrite u (indexAddr s k) v).mem.read (effAddr s j) = if j = k then v else u.mem.read (effAddr s j) := by
  have hsame : effAddr s j = indexAddr s k % 4096 ↔ j = k :=
    ⟨effAddr_inj s hj hk, fun h => congrArg (effAddr s) h⟩
  simp only [memWrite_read, hsame]

/-- The three stores of `BCD` are read back, in the order of the digits (R183). -/
theorem execBcd_read {x : Reg} {s t : State} (h : execBcd x s = .next t) :
    t.mem.read (effAddr s 0) = hundreds (s.reg x) ∧ t.mem.read (effAddr s 1) = tens (s.reg x) ∧
      t.mem.read (effAddr s 2) = units (s.reg x) := by
  obtain rfl := Host.Outcome.next.inj h
  refine ⟨?_, ?_, ?_⟩ <;> simp [memWrite_indexAddr_read, -memWrite_mem]

/-- An address is outside a block when it is none of the block's addresses. -/
theorem blockAddrs_eq_false_of_ne {s : State} {n a : Nat} (h : ∀ k, k < n → a ≠ effAddr s k) :
    blockAddrs s n a = false := by
  refine Bool.eq_false_iff.mpr fun hin => ?_
  obtain ⟨k, hk, rfl⟩ := (blockAddrs_iff s n a).mp hin
  exact h k hk rfl

/-- Settles O49: the three stores hold the digits, and the frame of `BCD` keeps the bytes outside its block. -/
theorem bcdStoresThreeDigits : Obligations.BcdStoresThreeDigits := by
  intro x s
  obtain ⟨t, ht⟩ : ∃ t, exec (.bcd x) s = .next t := ⟨_, rfl⟩
  obtain ⟨hhundreds, htens, hunits⟩ := execBcd_read ht
  have hframe : Frame { mem := blockAddrs s 3 } s t := exec_frame ht
  refine ⟨decodeWord_familyF (kk := 0x33) rfl, t, ht, exec_pc ht, by rw [hhundreds, hundreds_toNat],
    by rw [htens, tens_toNat], by rw [hunits, units_toNat], fun a h0 h1 h2 => ?_, hframe⟩
  refine hframe.mem a (blockAddrs_eq_false_of_ne fun k hk => ?_)
  match k, hk with
  | 0, _ => exact h0
  | 1, _ => exact h1
  | 2, _ => exact h2

/-! ## The register blocks of `STM` and `LDM` -/

/-- Settles O50: the block of the first `x + 1` registers is stored, and a stored block leaves every other byte. -/
theorem stmStoresTheRegistersUpToX : Obligations.StmStoresTheRegistersUpToX := by
  intro x s
  refine ⟨decodeWord_familyF (kk := 0x55) rfl, _, rfl, exec_pc (i := .stm x) rfl, fun k hk => ?_, fun a ha => ?_,
    exec_frame (i := .stm x) rfl⟩
  · have hread := storeBlock_read s x.isLt k.val (Nat.lt_succ_of_le hk)
    rwa [regNo_val] at hread
  · exact storeBlock_read_other s fun k hk => ha ⟨k, by omega⟩ (Nat.le_of_lt_succ hk)

/-- Settles O51: the block of the first `x + 1` registers is loaded, and the frame of `LDM` is its row of R22. -/
theorem ldmLoadsTheRegistersUpToX : Obligations.LdmLoadsTheRegistersUpToX := by
  intro x s
  refine ⟨decodeWord_familyF (kk := 0x65) rfl, _, rfl, exec_pc (i := .ldm x) rfl, fun k hk => ?_,
    exec_frame (i := .ldm x) rfl⟩
  exact (loadBlock_reg s k x.isLt).trans (if_pos (Nat.lt_succ_of_le hk))

end Sys2Proof.Machine
end

/-! # Display family: `CLS` and `RND` (R190, R191) -/

section
namespace Sys2Proof.Machine

/-- Settles O52: the screen is the blank one, and the frame of `CLS` is its row of R22. -/
theorem clsClearsEveryPixel : Obligations.ClsClearsEveryPixel :=
  ⟨decodeWord_encode .cls, fun _ =>
    ⟨_, rfl, rfl, fun r c => pixel_blankScreen r c, rfl, exec_frame (i := .cls) rfl⟩⟩

/-- `STEP(rnd)` of a step that completes (R120). -/
theorem hostStep_of_next {rnd : Byte} {s t : State} (h : step { s with rndIn := [rnd] } = .next t) :
    hostStep rnd s = ({ t with rndIn := [] }, .stepped t.out) := by
  rw [hostStep, h]

/-- With a byte presented, `RND` masks that byte and uses it up. -/
theorem execRnd_of_cons (x : Reg) (kk : Byte) {s : State} {b : Byte} {rest : List Byte} (h : s.rndIn = b :: rest) :
    execRnd x kk s = .next (advance (setReg { s with rndIn := rest } x (b &&& kk))) := by
  rw [execRnd, takeRandom_of_cons h]

/-- With no byte presented, `RND` masks the next free value (log 4). -/
theorem execRnd_of_nil (x : Reg) (kk : Byte) {s : State} (h : s.rndIn = []) :
    execRnd x kk s =
      .next (advance (setReg { s with draws := s.draws + 1 } x (Config.freeByte s.draws &&& kk))) := by
  rw [execRnd, takeRandom_of_nil h, drawFree]

/-- A `STEP(rnd)` that runs `RND` completes and masks the byte presented with it. -/
theorem hostStep_rnd {x : Reg} {kk : Byte} {s : State} (rnd : Byte) (hi : Runs s (.rnd x kk)) :
    ∃ o, (hostStep rnd s).2 = .stepped o ∧ (hostStep rnd s).1.reg x = rnd &&& kk := by
  have hruns : Runs { s with rndIn := [rnd] } (.rnd x kk) := hi
  rw [hostStep_of_next (step_of_exec_next hruns (execRnd_of_cons x kk rfl))]
  exact ⟨_, rfl, setReg_reg_same _ x (rnd &&& kk)⟩

/-- Settles O53, by whether a byte is presented. -/
theorem rndMasksTheRandomByte : Obligations.RndMasksTheRandomByte := by
  intro x kk s
  refine ⟨decodeWord_formatXK (f := 0xC) rfl, ?_, fun rnd hi => hostStep_rnd rnd hi⟩
  obtain ⟨t, ht⟩ : ∃ t, exec (.rnd x kk) s = .next t := ⟨_, rfl⟩
  refine ⟨t, ht, exec_pc ht, exec_frame ht, fun b rest hin => ?_, fun hin => ?_⟩
  · obtain rfl := Host.Outcome.next.inj ((execRnd_of_cons x kk hin).symm.trans ht)
    exact ⟨setReg_reg_same _ x (b &&& kk), rfl, rfl⟩
  · obtain rfl := Host.Outcome.next.inj ((execRnd_of_nil x kk hin).symm.trans ht)
    exact ⟨setReg_reg_same _ x (Config.freeByte s.draws &&& kk), hin, rfl⟩

end Sys2Proof.Machine
end

/-! # Display family: `DRW` (R192 to R197)

All that a completed `DRW` does to the screen and to `RF`, by where the sprite has a 1 bit. -/

section
namespace Sys2Proof.Machine

variable {x y : Reg} {n : RowCount} {s t : State} {r : Fin 32} {c : Fin 64}

/-- A count of rows is at most the height of the screen, so the rows of a sprite are distinct (R196). -/
theorem rowCount_le (n : RowCount) : n.val ≤ 32 := n.isLt.le.trans (by decide)

/-- A pixel where the sprite has a 1 bit is inverted (R192). -/
theorem exec_drw_pixel_of_hit (h : exec (.drw x y n) s = .next t) (hit : SpriteHits s (s.reg x) (s.reg y) n.val r c) :
    pixel t.fb r c = !pixel s.fb r c := by
  obtain rfl := Host.Outcome.next.inj h
  exact drawRows_hit (rowCount_le n) hit

/-- A pixel where it has none keeps its value (R192). -/
theorem exec_drw_pixel_of_miss (h : exec (.drw x y n) s = .next t)
    (miss : ¬ SpriteHits s (s.reg x) (s.reg y) n.val r c) : pixel t.fb r c = pixel s.fb r c := by
  obtain rfl := Host.Outcome.next.inj h
  exact drawRows_miss (rowCount_le n) miss

/-- `RF` receives the collision bit of the two loops, and nothing after it changes `RF` (P-R192). -/
theorem exec_drw_flag (h : exec (.drw x y n) s = .next t) :
    t.reg rf = flagByte (drawRows s (s.reg x) (s.reg y) n.val).2 := by
  obtain rfl := Host.Outcome.next.inj h
  exact setReg_reg_same _ rf _

/-- `RF` is 1 exactly when the sprite has a 1 bit on a set pixel (R195). -/
theorem exec_drw_flag_eq_one_iff (h : exec (.drw x y n) s = .next t) :
    t.reg rf = 1 ↔ ∃ r c, SpriteHits s (s.reg x) (s.reg y) n.val r c ∧ pixel s.fb r c = true := by
  rw [exec_drw_flag h, flagByte_eq_one, (drawRows_spec s _ _ n.val (rowCount_le n)).2]

/-- `RF` is 0 in every other case (R195). -/
theorem exec_drw_flag_eq_zero_iff (h : exec (.drw x y n) s = .next t) :
    t.reg rf = 0 ↔ ¬ ∃ r c, SpriteHits s (s.reg x) (s.reg y) n.val r c ∧ pixel s.fb r c = true := by
  rw [exec_drw_flag h, flagByte_eq_zero, ← Bool.not_eq_true, (drawRows_spec s _ _ n.val (rowCount_le n)).2]

/-- The pixels that a `DRW` turns off are the set ones where the sprite has a 1 bit. -/
theorem exec_drw_turnedOff_iff (h : exec (.drw x y n) s = .next t) :
    pixel s.fb r c = true ∧ pixel t.fb r c = false ↔
      SpriteHits s (s.reg x) (s.reg y) n.val r c ∧ pixel s.fb r c = true := by
  by_cases hit : SpriteHits s (s.reg x) (s.reg y) n.val r c
  · simp [hit, exec_drw_pixel_of_hit h hit]
  · simp [hit, exec_drw_pixel_of_miss h hit]

/-- A word of family D, written as a number, decodes as the encoder's word does (R91, R92). -/
theorem decodeWord_drw (x y : Reg) (n : RowCount) :
    decodeWord (BitVec.ofNat 16 (0xD000 + 256 * x.val + 16 * y.val + n.val)) = some (.drw x y n) := by
  have hword := decodeWord_formatXYN (f := 0xD) (i := .drw x y n) (n := BitVec.ofNat 4 n.val) rfl
  rwa [BitVec.toNat_ofNat, Nat.mod_eq_of_lt n.isLt] at hword

/-- Settles O54, clause by clause. -/
theorem drwInvertsThePixelsOfTheSprite : Obligations.DrwInvertsThePixelsOfTheSprite := by
  intro x y n s
  obtain ⟨t, ht⟩ : ∃ t, exec (.drw x y n) s = .next t := ⟨_, rfl⟩
  exact ⟨decodeWord_drw x y n, t, ht, exec_pc ht, exec_redrawNeeded ht,
    fun _ _ hit => exec_drw_pixel_of_hit ht hit, fun _ _ miss => exec_drw_pixel_of_miss ht miss,
    (exec_drw_flag_eq_one_iff ht).mpr, (exec_drw_flag_eq_zero_iff ht).mpr, exec_frame ht⟩

/-- Settles O55: the pixels turned off are those that the sprite meets set. -/
theorem collisionMeansAPixelWasTurnedOff : Obligations.CollisionMeansAPixelWasTurnedOff := by
  intro x y n s t h
  simp only [exec_drw_turnedOff_iff h]
  exact ⟨exec_drw_flag_eq_one_iff h, exec_drw_flag_eq_zero_iff h⟩

/-! ## The same sprite twice (R197) -/

/-- A sprite is read from memory at `I`, and `DRW` changes neither: after it the sprite has the same 1 bits. -/
theorem exec_drw_spriteHits_iff (h : exec (.drw x y n) s = .next t) (vx vy : Byte) (k : Nat) :
    SpriteHits t vx vy k r c ↔ SpriteHits s vx vy k r c := by
  have hframe := exec_frame h
  have hbyte : ∀ row, memRead t (indexAddr t row) = memRead s (indexAddr s row) := fun row => by
    rw [indexAddr, hframe.idx rfl]
    exact hframe.mem _ rfl
  simp only [SpriteHits, hbyte]

/-- Settles O56: the second `DRW` has the sprite of the first, inverts the same pixels back, and meets a set pixel
where the first found it 0. -/
theorem drawingASpriteTwiceRestoresTheScreen : Obligations.DrawingASpriteTwiceRestoresTheScreen := by
  intro x y n s t u h hx hy h'
  have hsprite : ∀ r c, SpriteHits t (t.reg x) (t.reg y) n.val r c ↔ SpriteHits s (s.reg x) (s.reg y) n.val r c :=
    fun r c => by rw [hx, hy, exec_drw_spriteHits_iff h]
  refine ⟨framebuffer_ext fun r c => ?_, exec_drw_flag_eq_one_iff h, ?_⟩
  · by_cases hit : SpriteHits s (s.reg x) (s.reg y) n.val r c
    · rw [exec_drw_pixel_of_hit h' ((hsprite r c).mpr hit), exec_drw_pixel_of_hit h hit, Bool.not_not]
    · rw [exec_drw_pixel_of_miss h' (mt (hsprite r c).mp hit), exec_drw_pixel_of_miss h hit]
  · have hmeets : ∀ r c, SpriteHits s (s.reg x) (s.reg y) n.val r c ∧ pixel t.fb r c = true ↔
        SpriteHits s (s.reg x) (s.reg y) n.val r c ∧ pixel s.fb r c = false :=
      fun r c => and_congr_right fun hit => by rw [exec_drw_pixel_of_hit h hit, Bool.not_eq_true']
    have hflag := exec_drw_flag_eq_one_iff h'
    simpa only [hsprite, hmeets] using hflag

end Sys2Proof.Machine
end

/-! # Keys and timers family: `SKP` and `SKNP` (R200, R201, R206) -/

section
namespace Sys2Proof.Machine

variable {s : State}

/-- A word of format XS, written as the number of its row and the register field, decodes as the encoder's word does
(R91, R92). -/
theorem decodeWord_formatXS {i : Instr} {f : Nibble} {x : Reg} {kk : Byte} (h : encode i = packXK f x kk) :
    decodeWord (BitVec.ofNat 16 (4096 * f.toNat + kk.toNat + 256 * x.val)) = some i := by
  rw [Nat.add_right_comm, decodeWord_formatXK h]

/-- A register value of 16 and above names no key, and no key is never pressed (R206). -/
theorem keyPressed_of_ge {x : Reg} (h : 16 ≤ (s.reg x).toNat) : keyPressed s x = false := keyDown_of_ge s.keys h

/-- Settles O40: `pc` moves by the bit of the key that the register names, and with no such key as by a 0 bit. -/
theorem keySkipsTestTheKeyARegisterNames : Obligations.KeySkipsTestTheKeyARegisterNames := by
  intro x s
  have hskp : (skipIf s (keyPressed s x)).pc = s.pc + (if keyPressed s x then 4#16 else 2#16) :=
    exec_pc (i := .skp x) rfl
  have hsknp : (skipIf s (!keyPressed s x)).pc = s.pc + (if keyPressed s x then 2#16 else 4#16) :=
    exec_pc (i := .sknp x) rfl
  refine ⟨decodeWord_formatXS (f := 0xE) (kk := 0x9E) rfl, decodeWord_formatXS (f := 0xE) (kk := 0xA1) rfl,
    ⟨_, rfl, frame_skipIf s _, fun k hk => ?_, fun hge => ?_⟩,
    ⟨_, rfl, frame_skipIf s _, fun k hk => ?_, fun hge => ?_⟩⟩
  · rw [hskp, keyPressed_of_val hk]
  · rw [hskp, keyPressed_of_ge hge, if_neg Bool.false_ne_true]
  · rw [hsknp, keyPressed_of_val hk]
  · rw [hsknp, keyPressed_of_ge hge, if_neg Bool.false_ne_true]

end Sys2Proof.Machine
end

/-! # Keys and timers family: `LDDT`, `STDT` and `STST` (R202, R204, R205, R207) -/

section
namespace Sys2Proof.Machine

variable {s t : State}

/-- Settles O57: the register is written with `DT`, and the step, which writes no timer, then ticks it. -/
theorem lddtReadsTheDelayTimerBeforeTheTick : Obligations.LddtReadsTheDelayTimerBeforeTheTick := by
  intro x s
  obtain ⟨hpc, hframe, hreg⟩ := advance_setReg_spec s x s.dt
  refine ⟨decodeWord_familyF (kk := 0x07) rfl, ⟨_, rfl, hpc, hreg, hframe⟩, fun hi => ?_⟩
  obtain ⟨u, hu⟩ : ∃ u, step s = .next u := ⟨_, step_of_exec_next hi rfl⟩
  have hno : ∀ z, ¬ Runs s (.stdt z) := fun z hz => nomatch hi.unique hz
  exact ⟨u, hu, step_lddt_reg hi hu, step_dt_of_not_stdt hno hu⟩

/-- Settles O58: the frame of `STDT` is its row of R22, and the tick meets the value written. -/
theorem stdtWritesTheDelayTimer : Obligations.StdtWritesTheDelayTimer := by
  intro x s
  refine ⟨decodeWord_familyF (kk := 0x15) rfl, ⟨_, rfl, rfl, rfl, exec_frame (i := .stdt x) rfl⟩, fun hi => ?_⟩
  obtain ⟨u, hu⟩ : ∃ u, step s = .next u := ⟨_, step_of_exec_next hi rfl⟩
  exact ⟨u, hu, step_stdt_dt hi hu⟩

/-- A timer that every step ticks unless the step writes it has lost one for each step of a run without such a write,
down to 0 (R127). -/
theorem stepsTo_timer {timer : State → Byte} {writesTimer : State → Prop}
    (htick : ∀ v w, ¬ writesTimer v → step v = .next w → (timer w).toNat = (timer v).toNat - 1) {k : Nat} :
    ∀ {t : State}, StepsTo k s t → (∀ j v, j < k → StepsTo j s v → ¬ writesTimer v) →
      (timer t).toNat = (timer s).toNat - k := by
  induction k with
  | zero =>
    intro t h _
    rw [stepsTo_zero.mp h, Nat.sub_zero]
  | succ k ih =>
    intro t h hno
    obtain ⟨u, hu, ht⟩ := stepsTo_succ_last.mp h
    rw [htick u t (hno k u k.lt_succ_self hu) ht, ih hu fun j v hj => hno j v (Nat.lt_succ_of_lt hj), Nat.sub_sub]

/-- `k` steps after the one that runs `STST`, none of them writing `ST` again, the timer is `k + 1` below the value
written. -/
theorem stepsTo_st_of_stst {x : Reg} {k : Nat} (hi : Runs s (.stst x)) (h : StepsTo (k + 1) s t)
    (hno : ∀ j v, 1 ≤ j → j ≤ k → StepsTo j s v → ∀ z, ¬ Runs v (.stst z)) :
    t.st.toNat = (s.reg x).toNat - 1 - k := by
  obtain ⟨u, hu, ht⟩ := stepsTo_succ.mp h
  have hkept : ∀ j v, j < k → StepsTo j u v → ¬ ∃ z, Runs v (.stst z) := fun j v hj hv ⟨z, hz⟩ =>
    hno (j + 1) v (Nat.succ_pos j) hj (stepsTo_succ.mpr ⟨u, hu, hv⟩) z hz
  rw [← step_stst_st hi hu]
  exact stepsTo_timer (timer := State.st) (fun _ _ hv => step_st_of_not_stst (not_exists.mp hv)) ht hkept

/-- Settles O59: the tone is on exactly after the steps that leave `ST` above 0. -/
theorem ststWritesTheSoundTimerAndTheToneLasts : Obligations.StstWritesTheSoundTimerAndTheToneLasts := by
  intro x s
  refine ⟨decodeWord_familyF (kk := 0x18) rfl, ⟨_, rfl, rfl, rfl, exec_frame (i := .stst x) rfl⟩, fun hi => ?_,
    fun k t hi h hno => ?_⟩
  · obtain ⟨u, hu⟩ : ∃ u, step s = .next u := ⟨_, step_of_exec_next hi rfl⟩
    exact ⟨u, hu, step_stst_st hi hu, step_toneActive_iff hu⟩
  · obtain ⟨u, -, ht⟩ := stepsTo_succ_last.mp h
    rw [step_toneActive_iff ht, stepsTo_st_of_stst hi h hno]
    omega

end Sys2Proof.Machine
end

/-! # Keys and timers family: `WAITK` (R203) -/

section
namespace Sys2Proof.Machine

variable {i : Instr} {s t : State} {x : Reg} {k : Nat}

/-- With a key down, `WAITK` stores the number of the lowest one and goes on. -/
theorem exec_waitk_of_some (x : Reg) (h : lowestKey s.keys = some k) :
    ∃ t, exec (.waitk x) s = .next t ∧ (t.reg x).toNat = k ∧ t.pc = s.pc + 2#16 ∧
      Frame { regs := fun r => r == x } s t := by
  obtain ⟨hk, -, -⟩ := (lowestKey_eq_some s.keys k).mp h
  obtain ⟨hpc, hframe, hreg⟩ := advance_setReg_spec s x (BitVec.ofNat 8 k)
  refine ⟨_, execWaitk_of_some h, ?_, hpc, hframe⟩
  rw [hreg, BitVec.toNat_ofNat, Nat.mod_eq_of_lt (hk.trans (by decide))]

/-- Settles O60, by whether `lowestKey` finds a key. -/
theorem waitkStoresTheLowestKeyOrStays : Obligations.WaitkStoresTheLowestKeyOrStays := by
  intro x s
  refine ⟨decodeWord_familyF (kk := 0x0A) rfl, fun h0 => execWaitk_of_none ((lowestKey_eq_none _).mpr h0),
    fun hne => ?_⟩
  obtain ⟨k, hk⟩ := Option.ne_none_iff_exists'.mp (mt (lowestKey_eq_none s.keys).mp hne)
  obtain ⟨hlt, hdown, hlower⟩ := (lowestKey_eq_some s.keys k).mp hk
  obtain ⟨t, ht, hreg, hpc, hframe⟩ := exec_waitk_of_some x hk
  exact ⟨t, k, ht, hlt, hdown, hlower, hreg, hpc, hframe⟩

/-! ## States that only age -/

/-- `t` is `s` after `k` ticks of the timers: nothing else differs but what the steps reported. -/
structure AgedBy (k : Nat) (s t : State) : Prop where
  rest : t = { s with dt := t.dt, st := t.st, out := t.out }
  dt : t.dt.toNat = s.dt.toNat - k
  st : t.st.toNat = s.st.toNat - k

theorem agedBy_zero (s : State) : AgedBy 0 s s := ⟨rfl, rfl, rfl⟩

theorem AgedBy.pc (h : AgedBy k s t) : t.pc = s.pc := by rw [h.rest]

theorem AgedBy.mem (h : AgedBy k s t) : t.mem = s.mem := by rw [h.rest]

theorem AgedBy.keys (h : AgedBy k s t) : t.keys = s.keys := by rw [h.rest]

/-- Ageing keeps the instruction that the next step runs. -/
theorem AgedBy.runs (h : AgedBy k s t) (hi : Runs s i) : Runs t i := by
  rw [Runs, h.pc, h.mem]
  exact hi

/-- The phases around an execute phase that changes nothing are one more tick (P-R129). -/
theorem AgedBy.tick (h : AgedBy k s t) : AgedBy (k + 1) s (report (tick (beginStep t))) where
  rest := by
    rw [h.rest]
    rfl
  dt := by rw [report_dt, tick_dt, beginStep_dt, tickDown_toNat, h.dt, Nat.sub_sub]
  st := by rw [report_st, tick_st, beginStep_st, tickDown_toNat, h.st, Nat.sub_sub]

/-- Where every aged form of a state runs an instruction that changes nothing, any number of steps only ages it. -/
theorem exists_stepsTo_agedBy (h : ∀ {k t}, AgedBy k s t → step t = .next (report (tick (beginStep t)))) (k : Nat) :
    ∃ t, StepsTo k s t ∧ AgedBy k s t := by
  induction k with
  | zero => exact ⟨s, stepsTo_zero.mpr rfl, agedBy_zero s⟩
  | succ k ih =>
    obtain ⟨t, ht, hage⟩ := ih
    exact ⟨_, stepsTo_succ_last.mpr ⟨t, ht, h hage⟩, hage.tick⟩

/-! ## Polling -/

theorem step_waitk_of_no_key (hi : Runs s (.waitk x)) (h : s.keys = 0) :
    step s = .next (report (tick (beginStep s))) :=
  step_of_exec_next hi (execWaitk_of_none ((lowestKey_eq_none _).mpr h))

/-- The one key that is pressed is the lowest one down. -/
theorem lowestKey_hostKey_of_no_key (h : s.keys = 0) (q : Fin 16) :
    lowestKey (hostKey q true s).keys = some q.val := by
  refine (lowestKey_eq_some _ _).mpr ⟨q.isLt, by rw [hostKey_getLsbD, if_pos rfl], fun j hj => ?_⟩
  have hne : (⟨j, hj.trans q.isLt⟩ : Fin 16) ≠ q := Fin.ne_of_lt hj
  have hbit := hostKey_getLsbD s q ⟨j, hj.trans q.isLt⟩ true
  rwa [if_neg hne, h, BitVec.ofNat_eq_ofNat, BitVec.getLsbD_zero] at hbit

/-- The first step of a polling `WAITK` after a key event stores that key's number and goes on, the key still down. -/
theorem step_waitk_of_key_event (hi : Runs s (.waitk x)) (h : s.keys = 0) (q : Fin 16) :
    ∃ u, step (hostKey q true s) = .next u ∧ (u.reg x).toNat = q.val ∧ u.pc = s.pc + 2#16 ∧
      u.keys.getLsbD q.val = true := by
  have hruns : Runs (hostKey q true s) (.waitk x) := hi
  obtain ⟨v, hv, hreg, hpc, hframe⟩ :=
    exec_waitk_of_some (s := beginStep (hostKey q true s)) x (lowestKey_hostKey_of_no_key h q)
  refine ⟨_, step_of_exec_next hruns hv, hreg, hpc, ?_⟩
  rw [report_keys, tick_keys, hframe.keys, beginStep_keys, hostKey_getLsbD, if_pos rfl]

/-- Settles O33: polling only ages the state, and so still runs `WAITK` with no key down when the key event comes. -/
theorem waitkPollsUntilAKeyIsDown : Obligations.WaitkPollsUntilAKeyIsDown := by
  intro s x k hi h0
  obtain ⟨t, ht, hage⟩ := exists_stepsTo_agedBy
    (fun hage => step_waitk_of_no_key (hage.runs hi) (hage.keys.trans h0)) k
  refine ⟨t, ht, hage.rest, hage.dt, hage.st, fun q => ?_⟩
  rw [← hage.pc]
  exact step_waitk_of_key_event (hage.runs hi) (hage.keys.trans h0) q

end Sys2Proof.Machine
end

/-! # Exceptions family: a step fails or completes and never declines (R210, R217) -/

section
namespace Sys2Proof.Machine

variable {a : Answer}

/-- Phases 4 and 5 decline nothing that the execute phase did not. -/
theorem finishStep_ne_refused (h : ∀ r, a ≠ .refused r) (r : Refusal) : finishStep a ≠ .refused r := by
  cases a with
  | next u => simp [finishStep]
  | fault f => simp [finishStep]
  | refused q => exact absurd rfl (h q)

/-- The execute phase gives every instruction a meaning. -/
theorem exec_ne_refused (i : Instr) (s : State) (r : Refusal) : exec i s ≠ .refused r := by
  obtain ⟨t, h⟩ | ⟨nnn, -, -, h⟩ | ⟨-, -, h⟩ := exec_cases i s <;> simp [h]

/-- A step declines nothing, whether its fetch fails or it runs an instruction or an unrecognized word (R217). -/
theorem step_ne_refused (s : State) (r : Refusal) : step s ≠ .refused r := by
  obtain hpc | ⟨i, hi⟩ | hu := fetched_cases s
  · simp [step_of_gt hpc]
  · rw [step_of_instr hi]
    exact finishStep_ne_refused (exec_ne_refused i (beginStep s)) r
  · rw [step_of_unrecognized hu]
    exact finishStep_ne_refused (by simp [execUnrecognized]) r

/-- Settles O11: `step_fault_iff` with the stack pointer as a number, and `step_ne_refused`. -/
theorem stepFailsOnlyInTheThreeReportedWays : Obligations.StepFailsOnlyInTheThreeReportedWays := by
  refine fun s => ⟨fun f => ?_, step_ne_refused s⟩
  have hfull : s.sp.val = 16 ↔ s.sp = 16 := (Fin.ext_iff (b := 16)).symm
  have hempty : s.sp.val = 0 ↔ s.sp = 0 := (Fin.ext_iff (b := 0)).symm
  rw [step_fault_iff, hfull, hempty, exists_and_right]

end Sys2Proof.Machine
end

/-! # Reset and hazards family: a delay read after it was written (R248) -/

section
namespace Sys2Proof.Machine

variable {s t : State}

/-- `k` steps after the one that runs `STDT`, none of them writing `DT` again, the timer is `k + 1` below the value
written. -/
theorem stepsTo_dt_of_stdt {x : Reg} {k : Nat} (hi : Runs s (.stdt x)) (h : StepsTo (k + 1) s t)
    (hno : ∀ j v, 1 ≤ j → j ≤ k → StepsTo j s v → ∀ z, ¬ Runs v (.stdt z)) :
    t.dt.toNat = (s.reg x).toNat - 1 - k := by
  obtain ⟨u, hu, ht⟩ := stepsTo_succ.mp h
  have hkept : ∀ j v, j < k → StepsTo j u v → ¬ ∃ z, Runs v (.stdt z) := fun j v hj hv =>
    not_exists.mpr (hno (j + 1) v (Nat.le_add_left 1 j) hj (stepsTo_succ.mpr ⟨u, hu, hv⟩))
  rw [stepsTo_timer (timer := State.dt) (fun _ _ hv => step_dt_of_not_stdt (not_exists.mp hv)) ht hkept,
    step_stdt_dt hi hu]

/-- Settles O34: `LDDT` reads the timer as the steps since `STDT` left it. -/
theorem delayTimerIsReadWithItsSkew : Obligations.DelayTimerIsReadWithItsSkew := by
  intro s t u x y k hwrite hsteps hno hread hu
  rw [step_lddt_reg hread hu, stepsTo_dt_of_stdt hwrite hsteps hno]

end Sys2Proof.Machine
end

/-! # Reset and hazards family: parked states (R252) -/

section
namespace Sys2Proof.Machine

variable {s : State} {pc : Word}

/-- The address field of a `JP` holds every `pc` that a word can be fetched from. -/
theorem addressOf_setWidth (h : pc.toNat ≤ 4094) : addressOf (pc.setWidth 12) = pc := by
  apply BitVec.eq_of_toNat_eq
  rw [addressOf_toNat, BitVec.toNat_setWidth, Nat.mod_eq_of_lt (by omega)]

/-- The word `0x1000 | pc` is a `JP` to `pc` (R252). -/
theorem decodeWord_jump_or (h : pc.toNat ≤ 4094) : decodeWord (0x1000 ||| pc) = some (.jp (pc.setWidth 12)) := by
  have hword : encode (.jp (pc.setWidth 12)) = 0x1000 ||| addressOf (pc.setWidth 12) := BitVec.append_def _ _
  rw [addressOf_setWidth h] at hword
  rw [← hword, decodeWord_encode]

/-- A parked state runs a `JP` to where it already is. -/
theorem Parked.runs (h : Parked s) : Runs s (.jp (s.pc.setWidth 12)) := by
  obtain ⟨hpc, hword⟩ := h
  exact ⟨hpc, by rw [hword, decodeWord_jump_or hpc]⟩

/-- The step of a parked state is its tick and report alone (P-R129). -/
theorem Parked.step_eq (h : Parked s) : step s = .next (report (tick (beginStep s))) := by
  refine step_of_exec_next h.runs ?_
  rw [exec, execJp, addressOf_setWidth h.1]
  rfl

theorem AgedBy.parked {k : Nat} {t : State} (hage : AgedBy k s t) (h : Parked s) : Parked t := by
  rw [Parked, hage.pc, hage.mem]
  exact h

/-- Settles O32: a parked state ages into parked states, and the latest of its steps wrote the output. -/
theorem parkedStateOnlyAgesItsTimers : Obligations.ParkedStateOnlyAgesItsTimers := by
  intro s k h
  cases k with
  | zero => exact ⟨s, stepsTo_zero.mpr rfl, rfl, rfl, rfl, fun h0 => absurd h0 (Nat.lt_irrefl 0)⟩
  | succ k =>
    obtain ⟨t, ht, hage⟩ := exists_stepsTo_agedBy (fun hage => (hage.parked h).step_eq) k
    have hlast := hage.tick
    exact ⟨_, stepsTo_succ_last.mpr ⟨t, ht, (hage.parked h).step_eq⟩, hlast.rest, hlast.dt, hlast.st, fun _ => rfl⟩

end Sys2Proof.Machine
end

/-! # Reset and hazards family: zero-filled memory (R244, R250) -/

section
namespace Sys2Proof.Machine

variable {s t : State} {k : Nat}

/-- `M` is 0 from `pc` up to its end. -/
def ZeroFromPc (s : State) : Prop := ∀ a, s.pc.toNat ≤ a → a < 4096 → s.mem.read a = 0

theorem wordAt_of_zero {m : Memory} {pc : Word} (hhigh : m.read pc.toNat = 0) (hlow : m.read (pc.toNat + 1) = 0) :
    wordAt m pc = 0 := by
  rw [wordAt, hhigh, hlow]
  rfl

/-- The zero word is no instruction (R95). -/
theorem ZeroFromPc.runsUnrecognized (h : ZeroFromPc s) (hpc : s.pc.toNat ≤ 4094) : RunsUnrecognized s := by
  refine ⟨hpc, ?_⟩
  rw [wordAt_of_zero (h _ le_rfl (by omega)) (h _ (Nat.le_succ _) (by omega))]
  decide

/-- `t` is `s` with `pc` moved `k` words on: nothing else differs but the timers and what the steps reported. -/
structure SlidBy (k : Nat) (s t : State) : Prop where
  rest : t = { s with pc := t.pc, dt := t.dt, st := t.st, out := t.out }
  pc : t.pc.toNat = s.pc.toNat + 2 * k

theorem slidBy_zero (s : State) : SlidBy 0 s s := ⟨rfl, rfl⟩

/-- Zero memory above `pc` is zero memory above a `pc` further on. -/
theorem SlidBy.zeroFromPc (hslid : SlidBy k s t) (h : ZeroFromPc s) : ZeroFromPc t := by
  intro a hle hlt
  have hmem : t.mem = s.mem := by rw [hslid.rest]
  have hpc := hslid.pc
  rw [hmem]
  exact h a (by omega) hlt

/-- A step on an unrecognized word slides one word further (R126). -/
theorem SlidBy.step_next (hslid : SlidBy k s t) (ht : RunsUnrecognized t) :
    ∃ u, step t = .next u ∧ SlidBy (k + 1) s u := by
  have hpc := hslid.pc
  have hle := ht.1
  refine ⟨_, step_of_unrecognized ht, by rw [hslid.rest]; rfl, ?_⟩
  rw [report_pc, tick_pc, advance_pc, beginStep_pc, BitVec.toNat_add, BitVec.toNat_ofNat]
  omega

/-- Where memory is zero up to its end, `k` steps slide `k` words on. -/
theorem exists_stepsTo_slidBy (h : ZeroFromPc s) (hk : s.pc.toNat + 2 * k ≤ 4096) :
    ∃ t, StepsTo k s t ∧ SlidBy k s t := by
  induction k with
  | zero => exact ⟨s, stepsTo_zero.mpr rfl, slidBy_zero s⟩
  | succ k ih =>
    obtain ⟨t, ht, hslid⟩ := ih (by omega)
    have hpc := hslid.pc
    obtain ⟨u, hu, hnext⟩ := hslid.step_next ((hslid.zeroFromPc h).runsUnrecognized (by omega))
    exact ⟨u, stepsTo_succ_last.mpr ⟨t, ht, hu⟩, hnext⟩

/-- `RESET` leaves `M` zero from address 512, where `pc` is, up (R37, R62). -/
theorem zeroFromPc_resetWith (font : Font) : ZeroFromPc (State.resetWith font) :=
  fun a hle _ => dif_neg (Nat.not_lt.mpr ((show 80 ≤ 512 by decide).trans hle))

/-- Settles O31: the slide, and from 512 on the 1792 words that end where no word can be fetched (R121). -/
theorem zeroFilledMemoryIsSlidThrough : Obligations.ZeroFilledMemoryIsSlidThrough := by
  refine ⟨fun s k h hk => ?_, fun font => ?_⟩
  · obtain ⟨t, ht, hslid⟩ := exists_stepsTo_slidBy h hk
    exact ⟨t, ht, hslid.pc, hslid.rest⟩
  · obtain ⟨t, ht, hslid⟩ := exists_stepsTo_slidBy (k := 1792) (zeroFromPc_resetWith font)
      (show 512 + 2 * 1792 ≤ 4096 by decide)
    have hend : t.pc = 4096 := BitVec.eq_of_toNat_eq hslid.pc
    refine ⟨t, ht, ?_⟩
    rw [step_of_gt (by rw [hend]; decide), hend]

end Sys2Proof.Machine
end
